-- ==== Sys2Proof/Word.lean ====
section
/-! DEFINITION. The two widths of the machine: a memory cell and a register (spec/00_scope.md R6). -/

namespace Sys2Proof

/-- A memory cell, an opcode byte or a register byte: 8 bits (R6, R54). -/
abbrev Byte := BitVec 8

/-- A register, an address or a 16-bit instruction field, unsigned, wrapping modulo 2^16 (R6, R10). -/
abbrev Word := BitVec 16

end Sys2Proof
end

