-- ==== Sys2Proof/Config.lean ====
section
/-! DEFINITION. The parameters of spec/00_scope.md R7, as one structure, with the names they range over, and the free
values of the host's text output. The default values the model runs with are `Sys2Proof.config` in Decode.lean. -/

namespace Sys2Proof

/-- The 19 opcode names, in the order of the source's list (30_encoding.md R52). -/
inductive Opcode
  | nop | load | store | mov | movi | add | sub | cmp | jmp | jz | jnz | inOp | out | push | pop | call | ret | mul | halt
deriving DecidableEq, Repr

/-- The seven registers, in the order of the source's list (10_state.md R11). -/
inductive Reg
  | r0 | r1 | r2 | r3 | pc | sp | fl
deriving DecidableEq, Repr

/-- INVALID_REG_POLICY: what an instruction does when a register byte is 7 to 255 (40_engine_and_system.md R85). -/
inductive InvalidRegPolicy
  /-- The hardware as built: the operation is skipped. -/
  | skip
  /-- The alternative offered for proofs: a fault of the model's own. -/
  | fault
deriving DecidableEq, Repr

/-- IN_BEHAVIOUR: what opcode byte 0x0B does (40_engine_and_system.md R89). -/
inductive InBehaviour
  /-- It raises UnknownOpcode like any byte without semantics. -/
  | unknownOpcode
  /-- The alternative offered for proofs: the model gives the byte no meaning. -/
  | refuse
deriving DecidableEq, Repr

/-- The named parameters of R7. -/
structure Config where
  /-- OPCODE_MAP (R52). -/
  opcodeMap : Opcode → Byte
  /-- REG_INDEX_MAP (R11). -/
  regIndexMap : Reg → Byte
  /-- INVALID_REG_POLICY (R85). -/
  invalidRegPolicy : InvalidRegPolicy
  /-- IN_BEHAVIOUR (R89). -/
  inBehaviour : InBehaviour
  /-- DEC_OUT_RENDER: the characters printed after the digits of the decimal event at a position of the stream (R35). -/
  decOutRender : Nat → Byte → List Byte
  /-- LOAD_TRIGGERS_MMIO (70_reset_and_hazards.md R197). -/
  loadTriggersMmio : Bool

/-- Free value (log 11): what the host prints after the digits of a `Dec` event, by position in the stream and byte. -/
opaque Config.freeDecTail : Nat → Byte → List Byte

/-- Free value (log 11): what the host prints for a `Char` byte of 0x80 or more, by position in the stream and byte. -/
opaque Config.freeHighChar : Nat → Byte → List Byte

/-- Free value (log 11): the text of the unknown-opcode diagnostic, by position in the stream and opcode byte. -/
opaque Config.freeDiagText : Nat → Byte → List Byte

end Sys2Proof
end

