-- ==== Sys2Proof/Syntax.lean ====
section
/-! DEFINITION. The instructions: one constructor per row of spec/opcode_table.json (30_encoding.md R51, R52). -/

namespace Sys2Proof

/-- An instruction with its operand fields as the bytes hold them. A register field is a whole byte, because the values
7 to 255 are invalid operands of the same instruction, not other instructions (R54, R60). Operands stand in the order
of the assembly syntax (R74). -/
inductive Instr
  | nop
  | load (reg : Byte) (addr : Word)
  | store (reg : Byte) (addr : Word)
  | mov (r1 r2 : Byte)
  | movi (reg : Byte) (imm : Word)
  | add (r1 r2 : Byte)
  | sub (r1 r2 : Byte)
  | cmp (r1 r2 : Byte)
  | jmp (addr : Word)
  | jz (addr : Word)
  | jnz (addr : Word)
  /-- IN, which the source names and gives no operands (R89). -/
  | inOp
  | out (port : Word) (reg : Byte)
  | push (reg : Byte)
  | pop (reg : Byte)
  | call (addr : Word)
  | ret
  | mul (r1 r2 : Byte)
  | halt
deriving DecidableEq, Repr

/-- The opcode name of an instruction. -/
def Instr.opcode : Instr → Opcode
  | .nop => .nop
  | .load _ _ => .load
  | .store _ _ => .store
  | .mov _ _ => .mov
  | .movi _ _ => .movi
  | .add _ _ => .add
  | .sub _ _ => .sub
  | .cmp _ _ => .cmp
  | .jmp _ => .jmp
  | .jz _ => .jz
  | .jnz _ => .jnz
  | .inOp => .inOp
  | .out _ _ => .out
  | .push _ => .push
  | .pop _ => .pop
  | .call _ => .call
  | .ret => .ret
  | .mul _ _ => .mul
  | .halt => .halt

/-- The register bytes of an instruction, in the order they are written (R54, R56). -/
def Instr.regBytes : Instr → List Byte
  | .load r _ => [r]
  | .store r _ => [r]
  | .mov r1 r2 => [r1, r2]
  | .movi r _ => [r]
  | .add r1 r2 => [r1, r2]
  | .sub r1 r2 => [r1, r2]
  | .cmp r1 r2 => [r1, r2]
  | .out _ r => [r]
  | .push r => [r]
  | .pop r => [r]
  | .mul r1 r2 => [r1, r2]
  | .nop => []
  | .jmp _ => []
  | .jz _ => []
  | .jnz _ => []
  | .inOp => []
  | .call _ => []
  | .ret => []
  | .halt => []

end Sys2Proof
end

