-- ==== Sys2Proof/WellFormed.lean ====
section
/-! DEFINITION. Well-formed instructions: every register byte names a register (30_encoding.md R54,
40_engine_and_system.md R84). An ill-formed instruction still encodes, decodes and runs: it skips (R85). -/

namespace Sys2Proof

/-- `valid(r)`: the whole byte is at most 6 (R84). -/
def validReg (r : Byte) : Bool := decide (r.toNat ≤ 6)

/-- Every register byte is valid. The 16-bit fields have no illegal value (R55). -/
def Instr.wf (i : Instr) : Bool := i.regBytes.all validReg

end Sys2Proof
end

