-- ==== Sys2Proof/Decode.lean ====
section
/-! DEFINITION. The default parameters, the byte-order helpers, the decoder and the encoder (spec/30_encoding.md).
The decoder reads its bytes one at a time through a reader, so that the same text decodes a list of bytes and fetches
from memory (R57, R81 to R83). -/

namespace Sys2Proof

/-- The default OPCODE_MAP: the names numbered in the listed order, HALT = 0xFF (R52, log 1). -/
def opcodeMap : Opcode → Byte
  | .nop => 0x00#8
  | .load => 0x01#8
  | .store => 0x02#8
  | .mov => 0x03#8
  | .movi => 0x04#8
  | .add => 0x05#8
  | .sub => 0x06#8
  | .cmp => 0x07#8
  | .jmp => 0x08#8
  | .jz => 0x09#8
  | .jnz => 0x0A#8
  | .inOp => 0x0B#8
  | .out => 0x0C#8
  | .push => 0x0D#8
  | .pop => 0x0E#8
  | .call => 0x0F#8
  | .ret => 0x10#8
  | .mul => 0x11#8
  | .halt => 0xFF#8

/-- The default REG_INDEX_MAP (10_state.md R11, log 2). -/
def regIndexMap : Reg → Byte
  | .r0 => 0#8
  | .r1 => 1#8
  | .r2 => 2#8
  | .r3 => 3#8
  | .pc => 4#8
  | .sp => 5#8
  | .fl => 6#8

/-- The parameters the model runs with: every default of 00_scope.md R7 (logs 1, 2, 4, 7, 11, 12). -/
def config : Config where
  opcodeMap := opcodeMap
  regIndexMap := regIndexMap
  invalidRegPolicy := .skip
  inBehaviour := .unknownOpcode
  decOutRender := Config.freeDecTail
  loadTriggersMmio := false

/-- `low8(v)`, bits 7:0 (00_scope.md R9). -/
def lowByte (w : Word) : Byte := w.extractLsb' 0 8

/-- Bits 15:8. -/
def highByte (w : Word) : Byte := w.extractLsb' 8 8

/-- `hi ++ lo`: a 16-bit field from the byte at the lower address and the next one (R55). -/
def joinBytes (lo hi : Byte) : Word := hi ++ lo

/-- `zext_16(b)` (00_scope.md R9). -/
def zext16 (b : Byte) : Word := b.setWidth 16

/-- Every opcode name. -/
def Opcode.all : List Opcode :=
  [.nop, .load, .store, .mov, .movi, .add, .sub, .cmp, .jmp, .jz, .jnz, .inOp, .out, .push, .pop, .call, .ret, .mul, .halt]

/-- The opcode a byte 0 stands for; `none` is an unknown opcode (R52, R53, R60). -/
def Opcode.ofByte (b : Byte) : Option Opcode := Opcode.all.find? fun o => config.opcodeMap o == b

/-- How many operand bytes follow the opcode byte (R51); IN is fetched as its opcode byte alone (R57). -/
def Opcode.operandBytes : Opcode → Nat
  | .nop => 0
  | .halt => 0
  | .ret => 0
  | .inOp => 0
  | .push => 1
  | .pop => 1
  | .jmp => 2
  | .jz => 2
  | .jnz => 2
  | .call => 2
  | .mov => 2
  | .add => 2
  | .sub => 2
  | .cmp => 2
  | .mul => 2
  | .load => 3
  | .store => 3
  | .movi => 3
  | .out => 3

/-- The total length of an instruction in bytes (R51). -/
def Opcode.length (o : Opcode) : Nat := 1 + o.operandBytes

section Reader

variable {σ : Type}

/-- A little-endian 16-bit field as two reads, low byte first (R55; `fetch16` of R82 when `next` is `fetch8`). -/
def readWord (next : σ → Byte × σ) (s : σ) : Word × σ :=
  let lo := next s
  let hi := next lo.2
  (joinBytes lo.1 hi.1, hi.2)

/-- Format `R`: one register byte (R51). -/
def readR (next : σ → Byte × σ) (mk : Byte → Instr) (s : σ) : Instr × σ :=
  let r := next s
  (mk r.1, r.2)

/-- Format `A`: one 16-bit address (R51). -/
def readA (next : σ → Byte × σ) (mk : Word → Instr) (s : σ) : Instr × σ :=
  let v := readWord next s
  (mk v.1, v.2)

/-- Format `RR`: two register bytes (R51). -/
def readRR (next : σ → Byte × σ) (mk : Byte → Byte → Instr) (s : σ) : Instr × σ :=
  let r1 := next s
  let r2 := next r1.2
  (mk r1.1 r2.1, r2.2)

/-- Format `RA`: a register byte, then a 16-bit field (R51). -/
def readRA (next : σ → Byte × σ) (mk : Byte → Word → Instr) (s : σ) : Instr × σ :=
  let r := next s
  let v := readWord next r.2
  (mk r.1 v.1, v.2)

/-- Format `PR`: a 16-bit port, then a register byte (R51, R56). -/
def readPR (next : σ → Byte × σ) (mk : Word → Byte → Instr) (s : σ) : Instr × σ :=
  let p := readWord next s
  let r := next p.2
  (mk p.1 r.1, r.2)

/-- The operands of each opcode by its format, and the source after them (R51, R56). -/
def readOperands (next : σ → Byte × σ) (o : Opcode) (s : σ) : Instr × σ :=
  match o with
  | .nop => (.nop, s)
  | .load => readRA next .load s
  | .store => readRA next .store s
  | .mov => readRR next .mov s
  | .movi => readRA next .movi s
  | .add => readRR next .add s
  | .sub => readRR next .sub s
  | .cmp => readRR next .cmp s
  | .jmp => readA next .jmp s
  | .jz => readA next .jz s
  | .jnz => readA next .jnz s
  | .inOp => (.inOp, s)
  | .out => readPR next .out s
  | .push => readR next .push s
  | .pop => readR next .pop s
  | .call => readA next .call s
  | .ret => (.ret, s)
  | .mul => readRR next .mul s
  | .halt => (.halt, s)

end Reader

/-- What the decoder makes of a list of bytes. -/
inductive Decoded
  /-- An instruction, and the bytes after it. -/
  | instr (i : Instr) (rest : List Byte)
  /-- Byte 0 is no opcode (R58, R90). -/
  | unknownOpcode (b : Byte)
  /-- The opcode is known and its operand bytes are not all there. -/
  | truncated (o : Opcode)
  /-- There is no byte 0. -/
  | empty
deriving DecidableEq, Repr

/-- The reader of a list of bytes. `decode` never lets it run out. -/
def nextByte : List Byte → Byte × List Byte
  | [] => (0#8, [])
  | b :: bs => (b, bs)

/-- The decoder: byte 0 alone decides the length and the meaning of the other bytes (R50, R57). -/
def decode : List Byte → Decoded
  | [] => .empty
  | b :: bs =>
    match Opcode.ofByte b with
    | none => .unknownOpcode b
    | some o =>
      if bs.length < o.operandBytes then .truncated o
      else
        let r := readOperands nextByte o bs
        .instr r.1 r.2

/-- The operand bytes of an instruction, in address order (R56, R74). -/
def encodeOperands : Instr → List Byte
  | .nop => []
  | .load r a => [r, lowByte a, highByte a]
  | .store r a => [r, lowByte a, highByte a]
  | .mov r1 r2 => [r1, r2]
  | .movi r v => [r, lowByte v, highByte v]
  | .add r1 r2 => [r1, r2]
  | .sub r1 r2 => [r1, r2]
  | .cmp r1 r2 => [r1, r2]
  | .jmp a => [lowByte a, highByte a]
  | .jz a => [lowByte a, highByte a]
  | .jnz a => [lowByte a, highByte a]
  | .inOp => []
  | .out p r => [lowByte p, highByte p, r]
  | .push r => [r]
  | .pop r => [r]
  | .call a => [lowByte a, highByte a]
  | .ret => []
  | .mul r1 r2 => [r1, r2]
  | .halt => []

/-- The bytes of an instruction in ascending address order (R50, R74). -/
def encode (i : Instr) : List Byte := config.opcodeMap i.opcode :: encodeOperands i

/-- The four bytes, lowest address first, of an instruction word numbered as the opcode table numbers it (R60: byte 0 is
bits 7:0), every bit from `nbits` up being 0. -/
def tableBytes (nbits w : Nat) : List Byte :=
  let v := w % 2 ^ nbits
  [BitVec.ofNat 8 v, BitVec.ofNat 8 (v / 2 ^ 8), BitVec.ofNat 8 (v / 2 ^ 16), BitVec.ofNat 8 (v / 2 ^ 24)]

/-- The instruction the decoder reads from a word of the opcode table. -/
def decodeTableWord (nbits w : Nat) : Option Instr :=
  match decode (tableBytes nbits w) with
  | .instr i _ => some i
  | .unknownOpcode _ => none
  | .truncated _ => none
  | .empty => none

end Sys2Proof
end

