-- ==== Sys2Proof/Machine/State.lean ====
section
/-! DEFINITION. The state of the machine (spec/10_state.md), the reasons a step can stop, and the state after reset. -/

namespace Sys2Proof.Machine

/-- An event of the output stream (10_state.md R21). -/
inductive Event
  /-- A byte was written to the character port 0xFF00 (20_memory.md R34). -/
  | char (b : Byte)
  /-- A byte was written to the decimal port 0xFF01 (20_memory.md R35). -/
  | dec (b : Byte)
  /-- The CPU met an unknown opcode byte (60_exceptions.md R171). -/
  | diag (b : Byte)
deriving DecidableEq, Repr

/-- The 65536 cells, sparsely: the cells that do not hold what an unlisted address reads as (10_state.md R20). The
operations on it and its canonical form `Memory.wf` are in Ops.lean. -/
abbrev Memory := List Host.Cell

/-- All the state there is (10_state.md R10 to R24). -/
structure State where
  /-- `R0` to `R3`, general registers (R12). -/
  r0 : Word
  r1 : Word
  r2 : Word
  r3 : Word
  /-- The program counter (R14). -/
  pc : Word
  /-- The stack pointer (R15). -/
  sp : Word
  /-- The flags: bit 0 is `Z`, the other bits are plain storage (R16). -/
  fl : Word
  /-- The run state: true is halted (R18). -/
  halted : Bool
  /-- The memory (R20). -/
  mem : Memory
  /-- The output stream, oldest event first (R21). -/
  out : List Event
deriving DecidableEq, Repr

/-- Why a step stops with a fault. The hardware itself has no such stop: its one exception is a next state (R171). -/
inductive Fault
  /-- A register byte of 7 to 255, raised by every instruction with a register byte under INVALID_REG_POLICY = fault, and
  never under the default `skip` (R85). Safe: it can only make a true claim unprovable. -/
  | invalidRegister (r : Byte)
deriving DecidableEq, Repr

/-- Why a step is refused. -/
inductive Refusal
  /-- An arm of `exec` without a meaning. No arm raises it. Safe. -/
  | notModelled (mnemonic : String)
  /-- IN under IN_BEHAVIOUR = refuse, and never under the default `unknownOpcode` (R89). Safe. -/
  | inHasNoSemantics
deriving DecidableEq, Repr

/-- What a meaning or a step answers. -/
abbrev Result := Host.Outcome State Fault Refusal

/-- The machine right after its creation and first reset (R24, R190): every register zero, running, every cell zero (no
cell listed), no event. -/
def State.reset : State where
  r0 := 0x0000#16
  r1 := 0x0000#16
  r2 := 0x0000#16
  r3 := 0x0000#16
  pc := 0x0000#16
  sp := 0x0000#16
  fl := 0x0000#16
  halted := false
  mem := []
  out := []

end Sys2Proof.Machine
end

