-- ==== Sys2Proof/Machine/Ops.lean ====
section
/-! DEFINITION. The shared operations: the memory cells, the memory interface with its two output ports
(spec/20_memory.md), the stack discipline (spec/45_stack.md, 46_call_ret.md) and the one exception
(spec/60_exceptions.md R171). There is no return from it (R177): only the host's reset leaves the halted state. -/

namespace Sys2Proof.Machine

/-- What an unlisted address reads as: the memory is zero-initialized at creation (10_state.md R20). -/
def Memory.unlisted : Byte := 0#8

/-- The byte listed at an address, or the unlisted byte. -/
def Memory.lookup : Memory → Nat → Byte
  | [], _ => Memory.unlisted
  | c :: m, a => if c.1 = a then c.2 else Memory.lookup m a

/-- A new entry before the first entry of a higher address. -/
def Memory.insertCell (a : Nat) (b : Byte) : Memory → Memory
  | [] => [(a, b)]
  | c :: m => if a < c.1 then (a, b) :: c :: m else c :: Memory.insertCell a b m

/-- One cell replaced, the canonical form kept: writing the unlisted byte removes the entry. -/
def Memory.replace (m : Memory) (a : Nat) (b : Byte) : Memory :=
  let rest := m.filter fun c => c.1 != a
  if b = Memory.unlisted then rest else Memory.insertCell a b rest

/-- `mem[addr]` (10_state.md R20): every 16-bit address names a cell. -/
def Memory.get (m : Memory) (a : Word) : Byte := Memory.lookup m a.toNat

/-- `mem[addr] <- b`. -/
def Memory.set (m : Memory) (a : Word) (b : Byte) : Memory := Memory.replace m a.toNat b

/-- The canonical form: addresses strictly rising and below 65536, no entry equal to the unlisted byte. -/
def Memory.wf : Memory → Bool
  | [] => true
  | c :: m => decide (c.1 < 65536) && decide (c.2 ≠ Memory.unlisted) && m.all (fun d => decide (c.1 < d.1)) && Memory.wf m

/-- `MMIO_CHAR`, the character output port (00_scope.md R6). -/
def charPort : Word := 0xFF00#16

/-- `MMIO_DEC`, the decimal output port (00_scope.md R6). -/
def decPort : Word := 0xFF01#16

/-- `sel_char`: the decode compares the full address (20_memory.md R30, 70_reset_and_hazards.md R203). -/
def selChar (a : Word) : Bool := a == charPort

/-- `sel_dec`. -/
def selDec (a : Word) : Bool := a == decPort

/-- `MemRead(addr, 1)`: a read at the character port is 0, every other read is the cell (20_memory.md R31, R33, R36). -/
def State.memRead (s : State) (a : Word) : Byte := if selChar a then 0x00#8 else s.mem.get a

/-- `emit(e)` (10_state.md R21). -/
def State.emit (s : State) (e : Event) : State := { s with out := s.out ++ [e] }

/-- The events one written byte appends (20_memory.md R34, R35, R36). -/
def portEvents (a : Word) (b : Byte) : List Event :=
  (if selChar a then [Event.char b] else []) ++ (if selDec a then [Event.dec b] else [])

/-- `MemWrite(addr, 1, b)`: store always, then the port's event (20_memory.md R32). -/
def State.memWrite (s : State) (a : Word) (b : Byte) : State :=
  { s with mem := s.mem.set a b, out := s.out ++ portEvents a b }

/-- `SP <- (SP - 1) mod 2^16` (10_state.md R15). -/
def State.decSp (s : State) : State := { s with sp := s.sp - 1#16 }

/-- `SP <- (SP + 1) mod 2^16` (10_state.md R15). -/
def State.incSp (s : State) : State := { s with sp := s.sp + 1#16 }

/-- The descending-stack push of one byte: decrement, then write (45_stack.md R150, 46_call_ret.md R160). -/
def State.pushByte (s : State) (b : Byte) : State := s.decSp.memWrite s.decSp.sp b

/-- The pop of one byte: read, then increment (45_stack.md R151, 46_call_ret.md R161). -/
def State.popByte (s : State) : Byte × State := (s.memRead s.sp, s.incSp)

/-- `raise UnknownOpcode(b)`: the diagnostic event, then halted. `pc` stays one past the opcode byte, and nothing is saved
(60_exceptions.md R171, R176; logs 14, 16). -/
def raiseUnknownOpcode (b : Byte) (s : State) : State := { s.emit (.diag b) with halted := true }

/-- Bytes put into consecutive cells directly, without the port side effects, addresses modulo 2^16. -/
def placeBytes : List Byte → Word → State → State
  | [], _, s => s
  | b :: bs, a, s => placeBytes bs (a + 1#16) { s with mem := s.mem.set a b }

end Sys2Proof.Machine
end

