-- ==== Sys2Proof/Machine/Operands.lean ====
section
/-! DEFINITION. Register operands: the register file (spec/10_state.md R10 to R13), the meaning of a register byte and the
validity test every register-operand instruction makes first (spec/40_engine_and_system.md R84, R85). -/

namespace Sys2Proof.Machine

/-- Every register, in index order. -/
def allRegs : List Reg := [.r0, .r1, .r2, .r3, .pc, .sp, .fl]

/-- The register byte of a register (10_state.md R11). -/
def regByte (a : Reg) : Byte := config.regIndexMap a

/-- The register a register byte names; `none` when the byte is invalid (R84). -/
def regOf (r : Byte) : Option Reg := allRegs.find? fun a => regByte a == r

/-- `x[i]`, `PC`, `SP` and `FL` included (10_state.md R13, 41_move.md R102). -/
def State.reg (s : State) : Reg → Word
  | .r0 => s.r0
  | .r1 => s.r1
  | .r2 => s.r2
  | .r3 => s.r3
  | .pc => s.pc
  | .sp => s.sp
  | .fl => s.fl

/-- `x[i] <- v`, `PC`, `SP` and `FL` included (10_state.md R13, 41_move.md R103). -/
def State.setReg (s : State) (a : Reg) (v : Word) : State :=
  match a with
  | .r0 => { s with r0 := v }
  | .r1 => { s with r1 := v }
  | .r2 => { s with r2 := v }
  | .r3 => { s with r3 := v }
  | .pc => { s with pc := v }
  | .sp => { s with sp := v }
  | .fl => { s with fl := v }

/-- What an invalid register byte does under each INVALID_REG_POLICY: nothing, or a model fault (R85, log 4). -/
def onInvalidReg (p : InvalidRegPolicy) (r : Byte) (s : State) : Result :=
  match p with
  | .skip => .next s
  | .fault => .fault (.invalidRegister r)

/-- An operation on one register byte, skipped when the byte is invalid (R84, R85). -/
def withReg (r : Byte) (s : State) (op : Reg → State) : Result :=
  match regOf r with
  | some a => .next (op a)
  | none => onInvalidReg config.invalidRegPolicy r s

/-- An operation on two register bytes, both tested before it does anything (R84, R85). -/
def withRegs (r1 r2 : Byte) (s : State) (op : Reg → Reg → State) : Result :=
  match regOf r1, regOf r2 with
  | some a, some b => .next (op a b)
  | some _, none => onInvalidReg config.invalidRegPolicy r2 s
  | none, _ => onInvalidReg config.invalidRegPolicy r1 s

end Sys2Proof.Machine
end

