-- ==== Sys2Proof/Machine/Flags.lean ====
section
/-! DEFINITION. The zero flag, the only flag of the machine (spec/10_state.md R16, R17). -/

namespace Sys2Proof.Machine

/-- `Z`, bit 0 of `FL` (R16). -/
def State.zero (s : State) : Bool := s.fl.getLsbD 0

/-- `FL` with `Z` set to whether a result is zero, bits 15:1 kept (R17, log 6). -/
def zeroFlag (fl res : Word) : Word := if res = 0x0000#16 then fl ||| 0x0001#16 else fl &&& 0xFFFE#16

/-- `setZ(res)` (R17). -/
def State.setZ (s : State) (res : Word) : State := { s with fl := zeroFlag s.fl res }

end Sys2Proof.Machine
end

