-- ==== Sys2Proof/Machine/Alu.lean ====
section
/-! DEFINITION. ADD, SUB, MUL and CMP (spec/42_alu.md). -/

namespace Sys2Proof.Machine

/-- The skeleton of the four instructions: both operands read, the destination written, then `setZ` (R110). -/
def aluOp (f : Word → Word → Word) (store : Bool) (r1 r2 : Byte) (s : State) : Result :=
  withRegs r1 r2 s fun a b =>
    let res := f (s.reg a) (s.reg b)
    (if store then s.setReg a res else s).setZ res

/-- ADD r1, r2 modulo 2^16 (R111). -/
def execAdd (r1 r2 : Byte) (s : State) : Result := aluOp (fun a b => a + b) true r1 r2 s

/-- SUB r1, r2 modulo 2^16 (R112). -/
def execSub (r1 r2 : Byte) (s : State) : Result := aluOp (fun a b => a - b) true r1 r2 s

/-- MUL r1, r2: the low 16 bits of the product (R113). -/
def execMul (r1 r2 : Byte) (s : State) : Result := aluOp (fun a b => a * b) true r1 r2 s

/-- CMP r1, r2: the flag of the difference, nothing stored (R114). -/
def execCmp (r1 r2 : Byte) (s : State) : Result := aluOp (fun a b => a - b) false r1 r2 s

end Sys2Proof.Machine
end

