-- ==== Sys2Proof/Machine/Branch.lean ====
section
/-! DEFINITION. JMP, JZ and JNZ (spec/43_branch.md). -/

namespace Sys2Proof.Machine

/-- `pc <- addr` when a condition holds (R133). -/
def jumpIf (c : Bool) (addr : Word) (s : State) : State := if c then { s with pc := addr } else s

/-- JMP addr (R130). -/
def execJmp (addr : Word) (s : State) : Result := .next (jumpIf true addr s)

/-- JZ addr: taken iff the zero flag is set (R131). -/
def execJz (addr : Word) (s : State) : Result := .next (jumpIf s.zero addr s)

/-- JNZ addr: taken iff the zero flag is clear (R132). -/
def execJnz (addr : Word) (s : State) : Result := .next (jumpIf (!s.zero) addr s)

end Sys2Proof.Machine
end

