-- ==== Sys2Proof/Machine/CallRet.lean ====
section
/-! DEFINITION. CALL and RET (spec/46_call_ret.md). -/

namespace Sys2Proof.Machine

/-- CALL addr: push the post-fetch `pc`, high byte first, then jump (R160, R162). -/
def execCall (addr : Word) (s : State) : Result :=
  .next { (s.pushByte (highByte s.pc)).pushByte (lowByte s.pc) with pc := addr }

/-- RET: pop the low byte, then the high byte, into `pc` (R161). -/
def execRet (s : State) : Result :=
  let lo := s.popByte
  let hi := lo.2.popByte
  .next { hi.2 with pc := joinBytes lo.1 hi.1 }

end Sys2Proof.Machine
end

