-- ==== Sys2Proof/Machine/Engine.lean ====
section
/-! DEFINITION. NOP, HALT and IN (spec/40_engine_and_system.md R87 to R89). A meaning starts from the state after every
byte of the instruction has been fetched: `pc` is the address of the next instruction (R83, log 19). -/

namespace Sys2Proof.Machine

/-- NOP: no effect (R87). -/
def execNop (s : State) : Result := .next s

/-- HALT: the halted state, no event (R88). -/
def execHalt (s : State) : Result := .next { s with halted := true }

/-- IN under each IN_BEHAVIOUR (R89). -/
def inEffect (p : InBehaviour) (s : State) : Result :=
  match p with
  | .unknownOpcode => .next (raiseUnknownOpcode (config.opcodeMap .inOp) s)
  | .refuse => .refused .inHasNoSemantics

/-- IN: the opcode byte is treated as an unknown opcode under the default parameter (R89, log 7). -/
def execIn (s : State) : Result := inEffect config.inBehaviour s

end Sys2Proof.Machine
end

