-- ==== Sys2Proof/Machine/MemoryIo.lean ====
section
/-! DEFINITION. LOAD, STORE and OUT (spec/44_memory_io.md). -/

namespace Sys2Proof.Machine

/-- The low byte of a register written to memory, the effect STORE and OUT share (R142, R143). -/
def storeLow (reg : Byte) (addr : Word) (s : State) : Result :=
  withReg reg s fun a => s.memWrite addr (lowByte (s.reg a))

/-- LOAD reg, addr: the zero-extended byte (R141). -/
def execLoad (reg : Byte) (addr : Word) (s : State) : Result :=
  withReg reg s fun a => s.setReg a (zext16 (s.memRead addr))

/-- STORE reg, addr (R142). -/
def execStore (reg : Byte) (addr : Word) (s : State) : Result := storeLow reg addr s

/-- OUT port, reg: the effect of STORE, the register byte last (R143). -/
def execOut (port : Word) (reg : Byte) (s : State) : Result := storeLow reg port s

end Sys2Proof.Machine
end

