-- ==== Sys2Proof/Machine/Move.lean ====
section
/-! DEFINITION. MOVI and MOV (spec/41_move.md). -/

namespace Sys2Proof.Machine

/-- MOVI reg, imm: `reg := imm`, no flag (R100). -/
def execMovi (reg : Byte) (imm : Word) (s : State) : Result := withReg reg s fun a => s.setReg a imm

/-- MOV r1, r2: `r1 := r2`, no flag (R101). -/
def execMov (r1 r2 : Byte) (s : State) : Result := withRegs r1 r2 s fun a b => s.setReg a (s.reg b)

end Sys2Proof.Machine
end

