-- ==== Sys2Proof/Machine/Stack.lean ====
section
/-! DEFINITION. PUSH and POP (spec/45_stack.md). -/

namespace Sys2Proof.Machine

/-- PUSH reg: one byte, the register read after the decrement of `SP` (R150, R153, log 8). -/
def execPush (reg : Byte) (s : State) : Result :=
  withReg reg s fun a => s.pushByte (lowByte (s.decSp.reg a))

/-- POP reg: the zero-extended byte at `SP`, then the increment of `SP` (R151, R153, log 8). -/
def execPop (reg : Byte) (s : State) : Result :=
  withReg reg s fun a => (s.setReg a (zext16 (s.memRead s.sp))).incSp

end Sys2Proof.Machine
end

