-- ==== Sys2Proof/Machine/Dispatch.lean ====
section
/-! DEFINITION. One arm per instruction, each a call of its meaning, on the state after the fetch (R80, R83). -/

namespace Sys2Proof.Machine

def exec (i : Instr) (s : State) : Host.Outcome State Fault Refusal :=
  match i with
  | .nop => Sys2Proof.Machine.execNop s
  | .load reg addr => Sys2Proof.Machine.execLoad reg addr s
  | .store reg addr => Sys2Proof.Machine.execStore reg addr s
  | .mov r1 r2 => Sys2Proof.Machine.execMov r1 r2 s
  | .movi reg imm => Sys2Proof.Machine.execMovi reg imm s
  | .add r1 r2 => Sys2Proof.Machine.execAdd r1 r2 s
  | .sub r1 r2 => Sys2Proof.Machine.execSub r1 r2 s
  | .cmp r1 r2 => Sys2Proof.Machine.execCmp r1 r2 s
  | .jmp addr => Sys2Proof.Machine.execJmp addr s
  | .jz addr => Sys2Proof.Machine.execJz addr s
  | .jnz addr => Sys2Proof.Machine.execJnz addr s
  | .inOp => Sys2Proof.Machine.execIn s
  | .out port reg => Sys2Proof.Machine.execOut port reg s
  | .push reg => Sys2Proof.Machine.execPush reg s
  | .pop reg => Sys2Proof.Machine.execPop reg s
  | .call addr => Sys2Proof.Machine.execCall addr s
  | .ret => Sys2Proof.Machine.execRet s
  | .mul r1 r2 => Sys2Proof.Machine.execMul r1 r2 s
  | .halt => Sys2Proof.Machine.execHalt s

end Sys2Proof.Machine
end

