-- ==== Sys2Proof/Machine/Fetch.lean ====
section
/-! DEFINITION. The fetch (spec/40_engine_and_system.md R81 to R83): every byte of an instruction, in ascending address
order, before any of its effects. -/

namespace Sys2Proof.Machine

/-- `fetch8()`: the byte at `PC` through the memory interface, `PC` advanced modulo 2^16 (R81, 20_memory.md R47). -/
def fetch8 (s : State) : Byte × State := (s.memRead s.pc, { s with pc := s.pc + 1#16 })

/-- `fetch16()`: two `fetch8()` calls, low byte first (R82). -/
def fetch16 (s : State) : Word × State := readWord fetch8 s

/-- What the fetch of one instruction finds. -/
inductive Fetched
  | instr (i : Instr)
  | unknownOpcode (b : Byte)
deriving DecidableEq, Repr

/-- The opcode byte, then the operand bytes its format has; none after an unknown opcode (R80, R83, R90). -/
def fetchInstr (s : State) : Fetched × State :=
  let op := fetch8 s
  match Opcode.ofByte op.1 with
  | none => (.unknownOpcode op.1, op.2)
  | some o =>
    let r := readOperands fetch8 o op.2
    (.instr r.1, r.2)

/-- The `n` bytes a fetch would read from an address on, the address modulo 2^16. -/
def bytesFrom (s : State) : Nat → Word → List Byte
  | 0, _ => []
  | n + 1, a => s.memRead a :: bytesFrom s n (a + 1#16)

end Sys2Proof.Machine
end

