-- ==== Sys2Proof/Machine/Step.lean ====
section
/-! DEFINITION. One step (spec/40_engine_and_system.md R80), its result (R86), and the host's way to place an instruction
where the next step fetches. -/

namespace Sys2Proof.Machine

/-- `step()`: nothing when halted; otherwise fetch, decode and execute one instruction (R80, R90). -/
def step (s : State) : Host.Outcome State Fault Refusal :=
  if s.halted then .next s
  else
    match fetchInstr s with
    | (.instr i, s') => exec i s'
    | (.unknownOpcode b, s') => .next (raiseUnknownOpcode b s')

/-- An instruction word of the opcode table stored in the four cells at `pc`, on a running machine (log 18). -/
def State.withFetchWord (s : State) (nbits w : Nat) : State :=
  placeBytes (tableBytes nbits w) s.pc { s with halted := false }

end Sys2Proof.Machine
end

