-- ==== Sys2Proof/Machine/Access.lean ====
section
/-! DEFINITION. What the spec's two tables say of every instruction: the memory accesses it makes, in order
(spec/20_memory.md R41), and the registers it may write (spec/10_state.md R19). The step does not use them; the
statements hold the step against them. -/

namespace Sys2Proof.Machine

/-- One single-byte access (20_memory.md R30, R38). -/
inductive Access
  | read (a : Word)
  | write (a : Word) (b : Byte)
deriving DecidableEq, Repr

/-- The reads of `n` consecutive addresses, ascending modulo 2^16. -/
def readsFrom : Nat → Word → List Access
  | 0, _ => []
  | n + 1, a => .read a :: readsFrom n (a + 1#16)

/-- Accesses that are made only when a register byte is valid (R41, last row). -/
def ifReg (r : Byte) (f : Reg → List Access) : List Access :=
  match regOf r with
  | some a => f a
  | none => []

/-- The accesses after the fetch, in order, from the state after the fetch (R41). -/
def dataAccesses (i : Instr) (s : State) : List Access :=
  match i with
  | .load r addr => ifReg r fun _ => [.read addr]
  | .store r addr => ifReg r fun a => [.write addr (lowByte (s.reg a))]
  | .out port r => ifReg r fun a => [.write port (lowByte (s.reg a))]
  | .push r => ifReg r fun a => [.write (s.sp - 1#16) (lowByte (s.decSp.reg a))]
  | .pop r => ifReg r fun _ => [.read s.sp]
  | .call _ => [.write (s.sp - 1#16) (highByte s.pc), .write (s.sp - 2#16) (lowByte s.pc)]
  | .ret => [.read s.sp, .read (s.sp + 1#16)]
  | .nop => []
  | .mov _ _ => []
  | .movi _ _ => []
  | .add _ _ => []
  | .sub _ _ => []
  | .cmp _ _ => []
  | .jmp _ => []
  | .jz _ => []
  | .jnz _ => []
  | .inOp => []
  | .mul _ _ => []
  | .halt => []

/-- Every access of the next step, in order: the fetch reads, then the data accesses; none when halted (R41, R80). -/
def stepAccesses (s : State) : List Access :=
  if s.halted then []
  else
    match fetchInstr s with
    | (.instr i, s') => readsFrom i.opcode.length s.pc ++ dataAccesses i s'
    | (.unknownOpcode _, _) => readsFrom 1 s.pc

/-- Accesses performed in order: a write goes through the memory interface, a read changes nothing (R31, R32). -/
def performAccesses : List Access → State → State
  | [], s => s
  | .read _ :: l, s => performAccesses l s
  | .write a b :: l, s => performAccesses l (s.memWrite a b)

/-- Whether an instruction is one of the four forms that write memory (R41). -/
def storesToMemory : Instr → Bool
  | .store _ _ => true
  | .out _ _ => true
  | .push _ => true
  | .call _ => true
  | .nop => false
  | .load _ _ => false
  | .mov _ _ => false
  | .movi _ _ => false
  | .add _ _ => false
  | .sub _ _ => false
  | .cmp _ _ => false
  | .jmp _ => false
  | .jz _ => false
  | .jnz _ => false
  | .inOp => false
  | .pop _ => false
  | .ret => false
  | .mul _ _ => false
  | .halt => false

/-- The register byte of an instruction's destination: the first operand of MOV, MOVI, ADD, SUB, MUL, LOAD and POP
(spec/30_encoding.md R74). -/
def destByte : Instr → Option Byte
  | .load r _ => some r
  | .mov r1 _ => some r1
  | .movi r _ => some r
  | .add r1 _ => some r1
  | .sub r1 _ => some r1
  | .mul r1 _ => some r1
  | .pop r => some r
  | .nop => none
  | .store _ _ => none
  | .cmp _ _ => none
  | .jmp _ => none
  | .jz _ => none
  | .jnz _ => none
  | .inOp => none
  | .out _ _ => none
  | .push _ => none
  | .call _ => none
  | .ret => none
  | .halt => none

/-- Whether an instruction performs `setZ`: exactly ADD, SUB, MUL and CMP (10_state.md R17). -/
def setsZero : Instr → Bool
  | .add _ _ => true
  | .sub _ _ => true
  | .mul _ _ => true
  | .cmp _ _ => true
  | .nop => false
  | .load _ _ => false
  | .store _ _ => false
  | .mov _ _ => false
  | .movi _ _ => false
  | .jmp _ => false
  | .jz _ => false
  | .jnz _ => false
  | .inOp => false
  | .out _ _ => false
  | .push _ => false
  | .pop _ => false
  | .call _ => false
  | .ret => false
  | .halt => false

/-- The registers an instruction may write after the fetch without naming them (10_state.md R19). -/
def implicitWrites (i : Instr) : List Reg :=
  match i with
  | .add _ _ => [.fl]
  | .sub _ _ => [.fl]
  | .mul _ _ => [.fl]
  | .cmp _ _ => [.fl]
  | .jmp _ => [.pc]
  | .jz _ => [.pc]
  | .jnz _ => [.pc]
  | .push _ => [.sp]
  | .pop _ => [.sp]
  | .call _ => [.sp, .pc]
  | .ret => [.sp, .pc]
  | .nop => []
  | .load _ _ => []
  | .store _ _ => []
  | .mov _ _ => []
  | .movi _ _ => []
  | .inOp => []
  | .out _ _ => []
  | .halt => []

/-- The registers an instruction may write after the fetch: its destination, and those of R19. -/
def mayWrite (i : Instr) (c : Reg) : Bool :=
  (implicitWrites i).contains c ||
    match destByte i with
    | some r => regOf r == some c
    | none => false

end Sys2Proof.Machine
end

