-- ==== Sys2Proof/Machine/Platform.lean ====
section
/-! DEFINITION. The host's moves between steps and what it observes (spec/70_reset_and_hazards.md R190 to R199, R203). -/

namespace Sys2Proof.Machine

/-- A machine created and never reset: memory and output stream, no CPU values, and no step (R191, R196, log 13). -/
structure Created where
  mem : Memory
  out : List Event
deriving DecidableEq, Repr

/-- `create`: memory all zero, `out` empty (R193, R196). -/
def createMachine : Created where
  mem := []
  out := []

/-- `reset()`: the seven registers zero, running; memory and `out` untouched (R190, log 13). -/
def resetCpu (s : State) : State :=
  { s with r0 := 0x0000#16, r1 := 0x0000#16, r2 := 0x0000#16, r3 := 0x0000#16, pc := 0x0000#16, sp := 0x0000#16,
           fl := 0x0000#16, halted := false }

/-- The first reset, which gives the CPU its values (R191, R193). -/
def Created.firstReset (c : Created) : State := { State.reset with mem := c.mem, out := c.out }

/-- One byte of a load: to the cell directly, or through the write primitive (LOAD_TRIGGERS_MMIO, R197). -/
def loadByte (fires : Bool) (a : Word) (b : Byte) (s : State) : State :=
  if fires then s.memWrite a b else { s with mem := s.mem.set a b }

/-- The copy of a buffer into consecutive cells from an address on (R197). -/
def loadBytes (fires : Bool) : List Byte → Nat → State → State
  | [], _, s => s
  | b :: bs, a, s => loadBytes fires bs (a + 1) (loadByte fires (BitVec.ofNat 16 a) b s)

/-- `loadProgram(buffer, start)` under each LOAD_TRIGGERS_MMIO; `none` is the failure, with no copy made (R197). -/
def loadWith (fires : Bool) (s : State) (buffer : List Byte) (start : Nat) : Option State :=
  if start + buffer.length > 65536 then none else some (loadBytes fires buffer start s)

/-- `loadProgram(buffer, start = 0)` (R197, log 12). -/
def loadProgram (s : State) (buffer : List Byte) (start : Nat := 0) : Option State :=
  loadWith config.loadTriggersMmio s buffer start

/-- The load before the first reset: it changes memory and `out` only (R193, R197). -/
def Created.loadProgram (c : Created) (buffer : List Byte) (start : Nat := 0) : Option Created :=
  (Sys2Proof.Machine.loadProgram c.firstReset buffer start).map fun s => { mem := s.mem, out := s.out }

/-- The two results of a step (R80, R86). -/
inductive StepResult
  | continues
  | stopped
deriving DecidableEq, Repr

/-- The result of the step that led to a state: `stopped` exactly when the CPU is halted after it (R86, log 22). -/
def State.result (s : State) : StepResult := if s.halted then .stopped else .continues

/-- The host's driving loop: step until a step returns `stopped`, within a number of steps (R86, R193, R204). -/
def runUntilStopped : Nat → State → Option State
  | 0, _ => none
  | n + 1, s =>
    match step s with
    | .next t =>
      match t.result with
      | .stopped => some t
      | .continues => runUntilStopped n t
    | .fault _ => none
    | .refused _ => none

/-- The run of R193: create, load at 0, reset, step until stopped. -/
def runImage (fuel : Nat) (image : List Byte) : Option State :=
  (createMachine.loadProgram image).bind fun c => runUntilStopped fuel c.firstReset

/-- What the host reads after a run: the seven registers, in index order (R198). -/
def State.registers (s : State) : List Word := allRegs.map s.reg

/-- The console: the `Char` and `Dec` events, the diagnostic apart (10_state.md R21, 90_conflicts.md C6). -/
def State.console (s : State) : List Event :=
  s.out.filter fun e =>
    match e with
    | .char _ => true
    | .dec _ => true
    | .diag _ => false

end Sys2Proof.Machine
end

