-- ==== Sys2Proof/Machine/Render.lean ====
section
/-! DEFINITION. The text the host makes of the output stream, as character codes, and the assembly text of an instruction
(spec/20_memory.md R34, R35; spec/30_encoding.md R73, R74). No step depends on it. -/

namespace Sys2Proof.Machine

/-- The character code of a decimal digit. -/
def digitCode (n : Nat) : Byte := BitVec.ofNat 8 (48 + n)

/-- The decimal digits of a byte without leading zeros (R35). -/
def decimalDigits (b : Byte) : List Byte :=
  let n := b.toNat
  if n < 10 then [digitCode n]
  else if n < 100 then [digitCode (n / 10), digitCode (n % 10)]
  else [digitCode (n / 100), digitCode (n / 10 % 10), digitCode (n % 10)]

/-- The character codes the host prints for the event at a position of the stream. What the spec leaves open is free: the
text after the digits, a character from 0x80 up, the diagnostic's text (R34, R35, R171, log 11). -/
def renderEvent (n : Nat) (e : Event) : List Byte :=
  match e with
  | .char b => if b.toNat < 0x80 then [b] else Config.freeHighChar n b
  | .dec b => decimalDigits b ++ config.decOutRender n b
  | .diag b => Config.freeDiagText n b

/-- The mnemonic of an opcode (R52). -/
def mnemonicOf : Opcode → String
  | .nop => "NOP"
  | .load => "LOAD"
  | .store => "STORE"
  | .mov => "MOV"
  | .movi => "MOVI"
  | .add => "ADD"
  | .sub => "SUB"
  | .cmp => "CMP"
  | .jmp => "JMP"
  | .jz => "JZ"
  | .jnz => "JNZ"
  | .inOp => "IN"
  | .out => "OUT"
  | .push => "PUSH"
  | .pop => "POP"
  | .call => "CALL"
  | .ret => "RET"
  | .mul => "MUL"
  | .halt => "HALT"

/-- The name of a register (10_state.md R11). -/
def regName : Reg → String
  | .r0 => "R0"
  | .r1 => "R1"
  | .r2 => "R2"
  | .r3 => "R3"
  | .pc => "PC"
  | .sp => "SP"
  | .fl => "FL"

/-- One hexadecimal digit. -/
def hexDigit (n : Nat) : String :=
  match ["0", "1", "2", "3", "4", "5", "6", "7", "8", "9", "A", "B", "C", "D", "E", "F"][n]? with
  | some d => d
  | none => "?"

/-- A numeric literal, `0x` and four hexadecimal digits (R73, log 25). -/
def literal (w : Word) : String :=
  let n := w.toNat
  "0x" ++ hexDigit (n / 4096) ++ hexDigit (n / 256 % 16) ++ hexDigit (n / 16 % 16) ++ hexDigit (n % 16)

/-- The text of a register byte; an invalid byte has none, the assembler's register table cannot make it (R201). -/
def regText (r : Byte) : Option String := (regOf r).map regName

/-- The assembly line of an instruction, operands in source order (R74). IN has no syntax, nor has an invalid register. -/
def assemblyText (i : Instr) : Option String :=
  let m := mnemonicOf i.opcode
  let one (a : Option String) : Option String := a.map fun x => m ++ " " ++ x
  let two (a b : Option String) : Option String := a.bind fun x => b.map fun y => m ++ " " ++ x ++ ", " ++ y
  match i with
  | .nop => some m
  | .load r a => two (regText r) (some (literal a))
  | .store r a => two (regText r) (some (literal a))
  | .mov r1 r2 => two (regText r1) (regText r2)
  | .movi r v => two (regText r) (some (literal v))
  | .add r1 r2 => two (regText r1) (regText r2)
  | .sub r1 r2 => two (regText r1) (regText r2)
  | .cmp r1 r2 => two (regText r1) (regText r2)
  | .jmp a => one (some (literal a))
  | .jz a => one (some (literal a))
  | .jnz a => one (some (literal a))
  | .inOp => none
  | .out p r => two (some (literal p)) (regText r)
  | .push r => one (regText r)
  | .pop r => one (regText r)
  | .call a => one (some (literal a))
  | .ret => some m
  | .mul r1 r2 => two (regText r1) (regText r2)
  | .halt => some m

end Sys2Proof.Machine
end

