-- ==== Sys2Proof/Safety.lean ====
section
/-! DEFINITION. What counts as a good run: how a run ends (spec/70_reset_and_hazards.md R199) and the invariants a step
keeps. -/

namespace Sys2Proof.Machine

/-- Whether an event is the unknown-opcode diagnostic. -/
def Event.isDiag : Event → Bool
  | .char _ => false
  | .dec _ => false
  | .diag _ => true

/-- Whether `out` holds a `Diag` event, the mark of a run that ended in a fault (R199, 60_exceptions.md R171). -/
def State.hasDiag (s : State) : Bool := s.out.any Event.isDiag

/-- A final state of a successful run: halted, with no diagnostic: the model's reading of R199 (logs 14 and 27). -/
def State.endedNormally (s : State) : Bool := s.halted && !s.hasDiag

/-- The end of a run on an unknown opcode: never a final state of a successful run (R171, R199; logs 14 and 27). -/
def State.endedInFault (s : State) : Bool := s.halted && s.hasDiag

/-- A run from a state that ends normally within a number of steps. -/
def SafeRun (fuel : Nat) (s : State) : Prop := ∃ t, runUntilStopped fuel s = some t ∧ t.endedNormally = true

/-- The byte of the last `Char` event. -/
def lastChar (out : List Event) : Option Byte :=
  out.foldl (fun acc e => match e with | .char b => some b | .dec _ => acc | .diag _ => acc) none

/-- The byte of the last `Dec` event. -/
def lastDec (out : List Event) : Option Byte :=
  out.foldl (fun acc e => match e with | .char _ => acc | .dec b => some b | .diag _ => acc) none

/-- The memory keeps its canonical form. -/
def MemoryCanonical (s : State) : Prop := s.mem.wf = true

/-- Each port's cell holds the byte of that port's last event (20_memory.md R34, R35: a port write stores and emits). -/
def PortsMirrorEvents (s : State) : Prop :=
  (∀ b, lastChar s.out = some b → s.mem.get charPort = b) ∧ (∀ b, lastDec s.out = some b → s.mem.get decPort = b)

/-- A diagnostic has halted the machine (60_exceptions.md R171, R177). -/
def DiagMeansHalted (s : State) : Prop := s.hasDiag = true → s.halted = true

/-- The invariant every step keeps. -/
def Invariant (s : State) : Prop := MemoryCanonical s ∧ PortsMirrorEvents s ∧ DiagMeansHalted s

/-- Nothing but the listed registers differs between two states: every other register, the run state, the memory and the
output stream are the same. -/
def OnlyRegsDiffer (regs : List Reg) (s t : State) : Prop :=
  (∀ c, c ∉ regs → t.reg c = s.reg c) ∧ t.halted = s.halted ∧ t.mem = s.mem ∧ t.out = s.out

/-- One byte went to memory: the cell holds it, every other cell is as before, and the port at that address, if there is
one, has emitted it (20_memory.md R32). -/
def StoresByte (addr : Word) (b : Byte) (s t : State) : Prop :=
  t.mem.get addr = b ∧ (∀ c, c ≠ addr → t.mem.get c = s.mem.get c) ∧
    t.out = s.out ++ (if addr = 0xFF00#16 then [.char b] else if addr = 0xFF01#16 then [.dec b] else [])

/-- No register and not the run state differs, but for the listed registers. -/
def OtherRegsSame (regs : List Reg) (s t : State) : Prop := (∀ c, c ∉ regs → t.reg c = s.reg c) ∧ t.halted = s.halted

/-- An arithmetic result in its destination, and the zero flag of it: with another destination bits 15:1 of `FL` are kept,
with `FL` as the destination they are the result's (42_alu.md R110, R116; 10_state.md R17). -/
def ArithmeticEffect (a : Reg) (res : Nat) (s t : State) : Prop :=
  OnlyRegsDiffer [a, .fl] s t ∧
    (a ≠ .fl → (t.reg a).toNat = res % 65536 ∧ t.fl.getLsbD 0 = decide (res % 65536 = 0) ∧
      ∀ k, 0 < k → t.fl.getLsbD k = s.fl.getLsbD k) ∧
    (a = .fl → t.fl = if res % 65536 = 0 then 0x0001#16 else BitVec.ofNat 16 res &&& 0xFFFE#16)

end Sys2Proof.Machine
end

