-- ==== Sys2Proof/Certificates/Slice0/Obligations.lean ====
section
/-! DEFINITION. The statements for the provers. A register operand is written `regByte a`: the register byte that
REG_INDEX_MAP gives a register, so that no statement about an instruction rests on the numbering (logs 1, 2), and every
valid register byte is one of them. `exec i s` runs on the state after the fetch: `s.pc` is the post-fetch PC (log 19). -/

open Sys2Proof Sys2Proof.Machine

/-! Encoding. -/

/-- 30_encoding.md R59: decoding what an instruction encodes to gives it back with every operand value, and leaves the
bytes after it; and a byte string that decodes to an instruction is that instruction's encoding, so no other string of its
length is. All 256 values of a register byte and all 65536 of a field are covered. -/
def Obligations.DecodeEncodeAgree : Prop :=
  (∀ (i : Instr) (rest : List Byte), decode (encode i ++ rest) = .instr i rest) ∧
    ∀ (bytes rest : List Byte) (i : Instr), decode bytes = .instr i rest → bytes = encode i ++ rest

/-- 30_encoding.md R53, R58: the opcode bytes the decoder rejects are exactly 0x12 to 0xFE. Under the default OPCODE_MAP,
which the spec itself decides (log 1). -/
def Obligations.DecoderRejectsExactlyUnlistedOpcodes : Prop :=
  ∀ (b : Byte) (bytes : List Byte), decode (b :: bytes) = .unknownOpcode b ↔ 0x12 ≤ b.toNat ∧ b.toNat ≤ 0xFE

/-- 30_encoding.md R51, R76: the length of an instruction depends on its opcode alone; IN counts as its opcode byte (R57,
log 7). -/
def Obligations.EncodedLengthsAreTheFormats : Prop :=
  ∀ i : Instr, (encode i).length =
    match i.opcode with
    | .nop => 1 | .halt => 1 | .ret => 1 | .inOp => 1
    | .push => 2 | .pop => 2
    | .jmp => 3 | .jz => 3 | .jnz => 3 | .call => 3
    | .mov => 3 | .add => 3 | .sub => 3 | .cmp => 3 | .mul => 3
    | .load => 4 | .store => 4 | .movi => 4 | .out => 4

/-- 95_test_vectors.md E8: some of its words, numbered as the opcode table numbers them, decode to the instructions they
stand for. Opcode bytes by log 1, operand positions by log 3. -/
def Obligations.SampleWordsDecode : Prop :=
  decodeTableWord 32 0x12340101 = some (.load 1#8 0x1234#16) ∧
  decodeTableWord 32 0xFE000504 = some (.movi 5#8 0xFE00#16) ∧
  decodeTableWord 24 0x020106 = some (.sub 1#8 2#8) ∧
  decodeTableWord 24 0x010208 = some (.jmp 0x0102#16) ∧
  decodeTableWord 32 0x03FF010C = some (.out 0xFF01#16 3#8) ∧
  decodeTableWord 16 0x060D = some (.push 6#8) ∧
  decodeTableWord 24 0x80000F = some (.call 0x8000#16) ∧
  decodeTableWord 8 0xFF = some .halt ∧
  decodeTableWord 8 0x12 = none

/-- 30_encoding.md R74: an instruction has an assembly line exactly when its register bytes are valid and it is not IN. The
spelling of the line is the model's choice (log 25). -/
def Obligations.AssemblyTextExistsForAssemblableInstructions : Prop :=
  ∀ i : Instr, assemblyText i = none ↔ i.wf = false ∨ i = .inOp

/-- 10_state.md R11, 40_engine_and_system.md R84: the register bytes 0 to 6, and no others, name the seven registers, so a
statement about every `regByte a` is about every valid register byte. The pairing is the spec's own decision D2 (log 2). -/
def Obligations.RegisterBytesNameTheSevenRegisters : Prop :=
  (∀ r : Byte, (∃ a, regByte a = r) ↔ r.toNat ≤ 6) ∧ (∀ a : Reg, regOf (regByte a) = some a) ∧
    [0#8, 1#8, 2#8, 3#8, 4#8, 5#8, 6#8].map regOf
      = [some .r0, some .r1, some .r2, some .r3, some .pc, some .sp, some .fl]

/-! The step. -/

/-- 40_engine_and_system.md R80, R83: when the bytes at `pc` decode to an instruction, a running step is `exec` of it on the
state whose `pc` has moved past all its bytes. That every byte is fetched first is the spec's own decision D5 (log 5). -/
def Obligations.StepRunsDecodedInstruction : Prop :=
  ∀ (s : State) (i : Instr) (rest : List Byte), s.halted = false → decode (bytesFrom s 4 s.pc) = .instr i rest →
    step s = exec i { s with pc := s.pc + BitVec.ofNat 16 (encode i).length }

/-- 60_exceptions.md R171, R176: an unknown opcode appends its diagnostic, halts, leaves `pc` one past the opcode byte and
changes nothing else. The next state, and not a fault, is the model's reading (log 14); the value of `pc` is the spec's
own decision D20 (log 16). -/
def Obligations.UnknownOpcodeStepHaltsWithDiagnostic : Prop :=
  ∀ s : State, s.halted = false → 0x12 ≤ (s.memRead s.pc).toNat → (s.memRead s.pc).toNat ≤ 0xFE →
    step s = .next { s with pc := s.pc + 1#16, out := s.out ++ [.diag (s.memRead s.pc)], halted := true }

/-- 40_engine_and_system.md R80, 60_exceptions.md R177: a step of a halted CPU changes nothing. -/
def Obligations.HaltedStepChangesNothing : Prop := ∀ s : State, s.halted = true → step s = .next s

/-- 40_engine_and_system.md R82: `fetch16()` is two `fetch8()` calls, low byte first, across the wrap too. -/
def Obligations.FetchSixteenIsTwoBytesLowFirst : Prop :=
  ∀ s : State,
    fetch16 s = (((fetch8 (fetch8 s).2).1 ++ (fetch8 s).1 : BitVec 16), (fetch8 (fetch8 s).2).2) ∧
      (s.pc = 0xFFFF#16 → (fetch8 s).1 = s.memRead 0xFFFF#16 ∧ (fetch8 (fetch8 s).2).1 = s.memRead 0x0000#16)

/-- 40_engine_and_system.md R80, R204: a step always completes. It rests on the default parameters `skip` and
`unknownOpcode` (logs 4, 7) and on the unknown opcode's next state (log 14). -/
def Obligations.StepAlwaysAnswersANextState : Prop := ∀ s : State, ∃ t, step s = .next t

/-- 40_engine_and_system.md R86: the CPU is halted after a step exactly when it was before, or the opcode byte is HALT's,
IN's or unknown. The numbers are the default OPCODE_MAP's (log 1); IN by log 7. -/
def Obligations.StoppedExactlyByHaltOrUnknownOpcode : Prop :=
  ∀ s t : State, step s = .next t →
    (t.result = .stopped ↔
      s.halted = true ∨ s.memRead s.pc = 0x0B#8 ∨ 0x12 ≤ (s.memRead s.pc).toNat)

/-- 10_state.md R21, 20_memory.md R41: a step keeps every event of the output stream in place and appends at most two. -/
def Obligations.OutputStreamIsAppendOnly : Prop :=
  ∀ s t : State, step s = .next t → ∃ new, t.out = s.out ++ new ∧ new.length ≤ 2

/-- 20_memory.md R33, R47, 40_engine_and_system.md R87: a running step at the character port is a NOP, whatever its cell
holds. The spec's own decision D9 (log 9), with opcode 0x00 by log 1. -/
def Obligations.StepAtCharacterPortIsNop : Prop :=
  ∀ s : State, s.halted = false → s.pc = 0xFF00#16 → step s = .next { s with pc := 0xFF01#16 }

/-- 10_state.md R12, R19: a general register differs after a step only if the instruction at `pc` names it as its
destination. The model's destination table is 30_encoding.md R74's. -/
def Obligations.GeneralRegistersChangeOnlyAsDestinations : Prop :=
  ∀ (s t : State) (c : Reg), step s = .next t → c ∈ [Reg.r0, .r1, .r2, .r3] → t.reg c ≠ s.reg c →
    ∃ i rest r, decode (bytesFrom s 4 s.pc) = .instr i rest ∧ destByte i = some r ∧ regOf r = some c

/-- The model's own convention (log 18): an instruction word placed by `withFetchWord` runs on the next step, when none of
the four cells at `pc` is the character port, whose reads are 0. -/
def Obligations.PlacedWordRunsNext : Prop :=
  ∀ (s : State) (nbits w : Nat) (i : Instr), decodeTableWord nbits w = some i →
    (∀ k : Nat, k < 4 → s.pc + BitVec.ofNat 16 k ≠ 0xFF00#16) →
    step (s.withFetchWord nbits w)
      = exec i { s.withFetchWord nbits w with pc := s.pc + BitVec.ofNat 16 (encode i).length }

/-! Memory. -/

/-- 20_memory.md R32: a write always stores the byte, then emits it at a port; no register and no other cell changes. -/
def Obligations.MemoryWriteStoresAndEmits : Prop :=
  ∀ (s : State) (addr : Word) (b : Byte),
    StoresByte addr b s (s.memWrite addr b) ∧ OtherRegsSame [] s (s.memWrite addr b)

/-- 20_memory.md R31, R33, R36, R42: what the memory interface reads after a write. That a read leaves the cell alone is
the spec's own decision D10 (log 10). -/
def Obligations.ReadAfterWrite : Prop :=
  ∀ (s : State) (a c : Word) (b : Byte),
    (s.memWrite a b).memRead c = if c = 0xFF00#16 then 0#8 else if c = a then b else s.memRead c

/-- 20_memory.md R33, R36: the character port reads 0 and every other address its cell, the decimal port included. -/
def Obligations.CharacterPortReadsZeroOthersReadTheirCell : Prop :=
  ∀ (s : State) (a : Word), s.memRead a = if a = 0xFF00#16 then 0#8 else s.mem.get a

/-- The model's own convention (log 20): memories in the canonical form that agree on every cell are the same data. -/
def Obligations.CanonicalMemoriesWithEqualCellsAreEqual : Prop :=
  ∀ m n : Memory, Memory.wf m = true → Memory.wf n = true → (∀ a : Word, m.get a = n.get a) → m = n

/-- 20_memory.md R44: a byte STORE writes is the byte the next fetch at its address reads, the character port apart. -/
def Obligations.StoreIsSeenByTheNextFetch : Prop :=
  ∀ (r : Reg) (addr : Word) (s t : State), exec (.store (regByte r) addr) s = .next t → addr ≠ 0xFF00#16 →
    (fetch8 { t with pc := addr }).1 = lowByte (s.reg r)

/-! Invariants. -/

/-- The invariant (canonical memory, ports mirroring their last events, a diagnostic only on a halted machine) at reset. -/
def Obligations.ResetHasInvariant : Prop := Invariant State.reset

/-- 20_memory.md R34, R35; 60_exceptions.md R171, R177: every step keeps the invariant: the memory keeps its canonical form
(log 20), each port's cell holds the byte of the port's last event, and a diagnostic stands only on a halted machine. -/
def Obligations.StepKeepsInvariant : Prop := ∀ s t : State, Invariant s → step s = .next t → Invariant t

/-- 70_reset_and_hazards.md sections 2 and 3: a run that ends, ends halted, in a state a further step leaves as it is, with
the invariant kept. That it ends normally or in a fault and never both is the model's reading (`endedNormally` and
`endedInFault`, logs 14 and 27), no rule of the spec: after a Diag, a reset and a HALT, the words of R199 give both ends. -/
def Obligations.RunsEndHaltedWithInvariant : Prop :=
  ∀ (n : Nat) (s t : State), runUntilStopped n s = some t →
    step t = .next t ∧ (t.endedNormally = true ↔ t.endedInFault = false) ∧ t.halted = true ∧ (Invariant s → Invariant t)

/-! What each instruction does. -/

/-- 40_engine_and_system.md R87: NOP has no effect after its fetch. -/
def Obligations.NopHasNoEffect : Prop := ∀ s : State, exec .nop s = .next s

/-- 40_engine_and_system.md R88: HALT halts and changes nothing else; no event. That `pc` stays past the HALT byte is the
spec's own derivation (log 16). -/
def Obligations.HaltHalts : Prop := ∀ s : State, exec .halt s = .next { s with halted := true }

/-- 40_engine_and_system.md R89: IN raises UnknownOpcode(0x0B) under the default IN_BEHAVIOUR, the spec's own decision D7
(log 7), with opcode 0x0B by log 1. -/
def Obligations.InRaisesUnknownOpcode : Prop :=
  ∀ s : State, exec .inOp s = .next { s with out := s.out ++ [.diag 0x0B#8], halted := true }

/-- 41_move.md R100: MOVI writes its immediate and nothing else, for every destination, `PC`, `SP` and `FL` included, which
are ordinary registers by the spec's own decision D5 (log 5). -/
def Obligations.MoviWritesImmediate : Prop :=
  ∀ (a : Reg) (imm : Word) (s : State),
    ∃ t, exec (.movi (regByte a) imm) s = .next t ∧ t.reg a = imm ∧ OnlyRegsDiffer [a] s t

/-- 41_move.md R101, R102: MOV copies a whole register; `PC` as the source is the post-fetch PC (decision D5, log 5). -/
def Obligations.MovCopiesRegister : Prop :=
  ∀ (a b : Reg) (s : State),
    ∃ t, exec (.mov (regByte a) (regByte b)) s = .next t ∧ t.reg a = s.reg b ∧ OnlyRegsDiffer [a] s t

/-- 42_alu.md R110 to R113, R116: ADD, SUB and MUL modulo 2^16, the zero flag after the destination, for every pair of
registers. Bits 15:1 of `FL` and `FL` as a destination follow the spec's own decision D6 (log 6). -/
def Obligations.ArithmeticResults : Prop :=
  ∀ (a b : Reg) (s : State),
    (∃ t, exec (.add (regByte a) (regByte b)) s = .next t ∧
      ArithmeticEffect a ((s.reg a).toNat + (s.reg b).toNat) s t) ∧
    (∃ t, exec (.sub (regByte a) (regByte b)) s = .next t ∧
      ArithmeticEffect a ((s.reg a).toNat + 65536 - (s.reg b).toNat) s t) ∧
    (∃ t, exec (.mul (regByte a) (regByte b)) s = .next t ∧
      ArithmeticEffect a ((s.reg a).toNat * (s.reg b).toNat) s t)

/-- 42_alu.md R114: CMP sets the zero flag to equality and changes nothing else; bits 15:1 of `FL` kept by log 6. -/
def Obligations.CmpSetsZeroToEquality : Prop :=
  ∀ (a b : Reg) (s : State),
    ∃ t, exec (.cmp (regByte a) (regByte b)) s = .next t ∧ t.fl.getLsbD 0 = decide (s.reg a = s.reg b) ∧
      (∀ k, 0 < k → t.fl.getLsbD k = s.fl.getLsbD k) ∧ OnlyRegsDiffer [.fl] s t

/-- 43_branch.md R130: JMP. The opcode byte is OPCODE_MAP's. -/
def Obligations.JmpSetsPc : Prop :=
  ∀ (addr : Word) (s : State),
    encode (.jmp addr) = [config.opcodeMap .jmp, lowByte addr, highByte addr] ∧
      ∃ t, exec (.jmp addr) s = .next t ∧ t.pc = addr ∧ OnlyRegsDiffer [.pc] s t

/-- 43_branch.md R131: JZ. It reads bit 0 of `FL` only. The opcode byte is OPCODE_MAP's. -/
def Obligations.JzJumpsIffZeroSet : Prop :=
  ∀ (addr : Word) (s : State),
    encode (.jz addr) = [config.opcodeMap .jz, lowByte addr, highByte addr] ∧
      ∃ t, exec (.jz addr) s = .next t ∧ t.pc = (if s.fl.getLsbD 0 = true then addr else s.pc) ∧ OnlyRegsDiffer [.pc] s t

/-- 43_branch.md R132: JNZ. The opcode byte is OPCODE_MAP's. -/
def Obligations.JnzJumpsIffZeroClear : Prop :=
  ∀ (addr : Word) (s : State),
    encode (.jnz addr) = [config.opcodeMap .jnz, lowByte addr, highByte addr] ∧
      ∃ t, exec (.jnz addr) s = .next t ∧ t.pc = (if s.fl.getLsbD 0 = false then addr else s.pc) ∧
        OnlyRegsDiffer [.pc] s t

/-- 44_memory_io.md R141: LOAD writes the zero-extended byte, 0 at the character port, and nothing else. Special registers
as destinations by decision D5 (log 5). -/
def Obligations.LoadWritesZeroExtendedByte : Prop :=
  ∀ (a : Reg) (addr : Word) (s : State),
    ∃ t, exec (.load (regByte a) addr) s = .next t ∧
      (t.reg a).toNat = (if addr = 0xFF00#16 then 0 else (s.mem.get addr).toNat) ∧ OnlyRegsDiffer [a] s t

/-- 44_memory_io.md R142, R143: STORE and OUT write the low byte of a register to memory, the ports included, and change no
register. Special registers as sources by decision D5 (log 5). -/
def Obligations.StoreAndOutWriteLowByte : Prop :=
  ∀ (a : Reg) (addr : Word) (s : State),
    (∃ t, exec (.store (regByte a) addr) s = .next t ∧ StoresByte addr (lowByte (s.reg a)) s t ∧ OtherRegsSame [] s t) ∧
    (∃ t, exec (.out addr (regByte a)) s = .next t ∧ StoresByte addr (lowByte (s.reg a)) s t ∧ OtherRegsSame [] s t)

/-- 45_stack.md R150, R153, R154: PUSH decrements `SP` and writes the low byte there; `PUSH SP` writes that of the
decremented `SP`, the spec's own decision D8 (log 8). -/
def Obligations.PushWritesLowByteBelowSp : Prop :=
  ∀ (a : Reg) (s : State),
    ∃ t, exec (.push (regByte a)) s = .next t ∧
      StoresByte (s.sp - 1#16) (lowByte (if a = .sp then s.sp - 1#16 else s.reg a)) s t ∧
      t.sp = s.sp - 1#16 ∧ OtherRegsSame [.sp] s t

/-- 45_stack.md R151, R153, R154: POP writes the zero-extended byte at `SP`, then increments `SP`; `POP SP` increments the
popped value, the spec's own decision D8 (log 8). -/
def Obligations.PopWritesByteThenIncrementsSp : Prop :=
  ∀ (a : Reg) (s : State),
    ∃ t, exec (.pop (regByte a)) s = .next t ∧
      (a ≠ .sp → (t.reg a).toNat = (s.memRead s.sp).toNat ∧ t.sp = s.sp + 1#16) ∧
      (a = .sp → t.sp.toNat = (s.memRead s.sp).toNat + 1) ∧ OnlyRegsDiffer [a, .sp] s t

/-- 46_call_ret.md R160: CALL pushes the post-fetch PC, high byte first, then jumps. The opcode byte is OPCODE_MAP's. -/
def Obligations.CallPushesReturnAddressAndJumps : Prop :=
  ∀ (addr : Word) (s : State),
    encode (.call addr) = [config.opcodeMap .call, lowByte addr, highByte addr] ∧
      ∃ t, exec (.call addr) s = .next t ∧
        (∃ u, StoresByte (s.sp - 1#16) (highByte s.pc) s u ∧ StoresByte (s.sp - 2#16) (lowByte s.pc) u t) ∧
        t.sp = s.sp - 2#16 ∧ t.pc = addr ∧ OtherRegsSame [.sp, .pc] s t

/-- 46_call_ret.md R161: RET pops the low byte, then the high byte, into `PC`. The opcode byte is OPCODE_MAP's. -/
def Obligations.RetPopsReturnAddress : Prop :=
  ∀ s : State,
    encode .ret = [config.opcodeMap .ret] ∧
      ∃ t, exec .ret s = .next t ∧
        t.pc.toNat = (s.memRead (s.sp + 1#16)).toNat * 256 + (s.memRead s.sp).toNat ∧
        t.sp = s.sp + 2#16 ∧ OnlyRegsDiffer [.pc, .sp] s t

/-- 40_engine_and_system.md R84, R85: an instruction with a register byte above 6, in either place, does nothing after its
fetch. The as-built `skip` and its whole-operation reading are the spec's own decision D4 (log 4). -/
def Obligations.IllFormedInstructionIsSkipped : Prop :=
  ∀ (i : Instr) (r : Byte) (s : State), r ∈ i.regBytes → 6 < r.toNat → exec i s = .next s

/-! What an instruction leaves alone. -/

/-- 10_state.md R19: after the fetch an instruction writes no register but the destination it names and those the table of
R19 lists, and none but HALT and IN changes the run state. -/
def Obligations.RegisterFrame : Prop :=
  ∀ (i : Instr) (s t : State), exec i s = .next t →
    (∀ c, mayWrite i c = false → t.reg c = s.reg c) ∧ (i ≠ .halt → i ≠ .inOp → t.halted = s.halted)

/-- 10_state.md R16, R17: an instruction whose destination is not `FL` keeps bits 15:1 of `FL` (log 6), and all of `FL` if it
is none of ADD, SUB, MUL and CMP. -/
def Obligations.FlagFrame : Prop :=
  ∀ (i : Instr) (s t : State), exec i s = .next t → (∀ r, destByte i = some r → regOf r ≠ some .fl) →
    (∀ k, 0 < k → t.fl.getLsbD k = s.fl.getLsbD k) ∧ (setsZero i = false → t.fl = s.fl)

/-- 20_memory.md R41: STORE and OUT change no cell but that of their address field, PUSH none but that at `SP - 1`, CALL
none but those at `SP - 1` and `SP - 2`, and no other instruction changes memory. -/
def Obligations.MemoryFrame : Prop :=
  (∀ (i : Instr) (s t : State), exec i s = .next t → storesToMemory i = false → t.mem = s.mem) ∧
  (∀ (r : Byte) (addr c : Word) (s t : State), exec (.store r addr) s = .next t → c ≠ addr → t.mem.get c = s.mem.get c) ∧
  (∀ (r : Byte) (port c : Word) (s t : State), exec (.out port r) s = .next t → c ≠ port → t.mem.get c = s.mem.get c) ∧
  (∀ (r : Byte) (c : Word) (s t : State), exec (.push r) s = .next t → c ≠ s.sp - 1#16 → t.mem.get c = s.mem.get c) ∧
  (∀ (addr c : Word) (s t : State), exec (.call addr) s = .next t → c ≠ s.sp - 1#16 → c ≠ s.sp - 2#16 →
    t.mem.get c = s.mem.get c)

/-- 20_memory.md R41: the memory after an instruction, and the output stream of every one but IN, are those of the accesses
the table lists for it, performed in order. The order is the spec's own decision D16 (log 17). -/
def Obligations.MemoryEffectIsTheListedAccesses : Prop :=
  ∀ (i : Instr) (s t : State), exec i s = .next t →
    t.mem = (performAccesses (dataAccesses i s) s).mem ∧
      (i ≠ .inOp → t.out = (performAccesses (dataAccesses i s) s).out)

/-- 20_memory.md R41, R42: an instruction learns from memory only what the reads the table lists for it answer: two states
that differ in memory alone, and agree on those reads, come to the same registers, run state and events. -/
def Obligations.ResultDependsOnlyOnTheListedReads : Prop :=
  ∀ (i : Instr) (s t u : State) (m : Memory),
    (∀ a, Access.read a ∈ dataAccesses i s → s.memRead a = ({ s with mem := m } : State).memRead a) →
    exec i s = .next t → exec i { s with mem := m } = .next u →
    (∀ c, t.reg c = u.reg c) ∧ t.halted = u.halted ∧ t.out = u.out

/-! Stack and subroutines. -/

/-- 46_call_ret.md R162: RET after CALL restores `PC` and `SP` when the stack is balanced in between and the frame's two
cells are as CALL left them; neither may be the character port, which reads 0 (20_memory.md R33). -/
def Obligations.ReturnAfterCallRestores : Prop :=
  ∀ (addr : Word) (s t u : State), exec (.call addr) s = .next t →
    s.sp - 1#16 ≠ 0xFF00#16 → s.sp - 2#16 ≠ 0xFF00#16 → u.sp = t.sp →
    u.mem.get (s.sp - 1#16) = t.mem.get (s.sp - 1#16) → u.mem.get (s.sp - 2#16) = t.mem.get (s.sp - 2#16) →
    ∃ v, exec .ret u = .next v ∧ v.pc = s.pc ∧ v.sp = s.sp

/-- 45_stack.md R152: POP after PUSH gives the low byte of the pushed register and restores `SP`, the character port and
`SP` as an operand apart. -/
def Obligations.PopAfterPushGivesLowByte : Prop :=
  ∀ (a b : Reg) (s t : State), a ≠ .sp → b ≠ .sp → s.sp - 1#16 ≠ 0xFF00#16 → exec (.push (regByte a)) s = .next t →
    ∃ u, exec (.pop (regByte b)) t = .next u ∧ (u.reg b).toNat = (s.reg a).toNat % 256 ∧ u.sp = s.sp

/-! Reset, load and the host. -/

/-- 70_reset_and_hazards.md R190: the reset operation, from either run state. That memory and `out` are untouched is the
spec's own decision D14 (log 13). -/
def Obligations.ResetZeroesRegistersAndRuns : Prop :=
  ∀ s : State, (∀ c, (resetCpu s).reg c = 0x0000#16) ∧ (resetCpu s).halted = false ∧ (resetCpu s).mem = s.mem ∧
    (resetCpu s).out = s.out

/-- 10_state.md R20, R24, 70_reset_and_hazards.md R193: the machine created and reset is the reset state, with every
register and cell 0, running, and no event. -/
def Obligations.CreatedMachineResetsToResetState : Prop :=
  createMachine.firstReset = State.reset ∧ (∀ c, State.reset.reg c = 0x0000#16) ∧ State.reset.halted = false ∧
    (∀ a : Word, State.reset.mem.get a = 0x00#8) ∧ State.reset.out = []

/-- 70_reset_and_hazards.md R197: a load fails exactly when it would pass the top of memory; otherwise it copies the buffer
to consecutive cells and changes no other cell, no register and, by the spec's own decision D13 (log 12), no event. -/
def Obligations.LoadProgramCopiesOrFails : Prop :=
  ∀ (s : State) (buffer : List Byte) (start : Nat),
    (loadProgram s buffer start = none ↔ 65536 < start + buffer.length) ∧
    ∀ t, loadProgram s buffer start = some t →
      OtherRegsSame [] s t ∧ t.out = s.out ∧ (Memory.wf s.mem = true → Memory.wf t.mem = true) ∧
      ∀ a : Word, t.mem.get a =
        if start ≤ a.toNat then (buffer[a.toNat - start]?).getD (s.mem.get a) else s.mem.get a

/-- 70_reset_and_hazards.md R192: after reset the first opcode is fetched at 0, which is the first byte of the image. -/
def Obligations.FirstFetchIsAtZero : Prop :=
  (∀ s : State, (resetCpu s).pc = 0x0000#16 ∧ (fetch8 (resetCpu s)).1 = (resetCpu s).memRead 0x0000#16) ∧
    ∀ (b : Byte) (image : List Byte) (c : Created), createMachine.loadProgram (b :: image) = some c →
      c.firstReset.pc = 0x0000#16 ∧ (fetch8 c.firstReset).1 = b

/-- 70_reset_and_hazards.md R193: a load and a reset commute. By decisions D13 and D14 (logs 12, 13). -/
def Obligations.LoadAndResetCommute : Prop :=
  ∀ (s : State) (buffer : List Byte) (start : Nat),
    loadProgram (resetCpu s) buffer start = (loadProgram s buffer start).map resetCpu

/-- 20_memory.md R35: the digits of a decimal event are decimal digits, without a leading zero, of the byte's value. The
rendering is from general knowledge, as the rule marks it (log 11). -/
def Obligations.DecimalDigitsSpellTheByte : Prop :=
  ∀ b : Byte,
    (decimalDigits b).foldl (fun n d => 10 * n + (d.toNat - 48)) 0 = b.toNat ∧
      (∀ d ∈ decimalDigits b, 48 ≤ d.toNat ∧ d.toNat ≤ 57) ∧
      (b ≠ 0#8 → (decimalDigits b).head? ≠ some 48#8) ∧ (b = 0#8 → decimalDigits b = [48#8])
end

