-- ==== Sys2Proof/Laws/Decode.lean ====
section
/-! SUPPORT. The opcode table, the byte order of the 16-bit fields, and the lengths. -/

namespace Sys2Proof

/-- The opcode map gives every opcode a byte of its own. -/
@[simp] theorem ofByte_opcodeMap (o : Opcode) : Opcode.ofByte (config.opcodeMap o) = some o := by cases o <;> rfl

theorem opcodeMap_of_ofByte {b : Byte} {o : Opcode} (h : Opcode.ofByte b = some o) : config.opcodeMap o = b := by
  simpa using List.find?_some h

@[simp] theorem joinBytes_low_high (w : Word) : joinBytes (lowByte w) (highByte w) = w := by
  apply BitVec.eq_of_toNat_eq
  simp only [joinBytes, lowByte, highByte, BitVec.toNat_append, BitVec.extractLsb'_toNat]
  have := w.isLt
  rw [← Nat.shiftLeft_add_eq_or_of_lt (by omega)]
  simp only [Nat.shiftLeft_eq, Nat.shiftRight_eq_div_pow]
  omega

theorem joinBytes_toNat (lo hi : Byte) : (joinBytes lo hi).toNat = hi.toNat * 256 + lo.toNat := by
  simp only [joinBytes, BitVec.toNat_append]
  rw [← Nat.shiftLeft_add_eq_or_of_lt lo.isLt, Nat.shiftLeft_eq]

theorem lowByte_toNat (w : Word) : (lowByte w).toNat = w.toNat % 256 := by
  simp [lowByte, BitVec.extractLsb'_toNat]

theorem highByte_toNat (w : Word) : (highByte w).toNat = w.toNat / 256 := by
  have := w.isLt
  simp only [highByte, BitVec.extractLsb'_toNat, Nat.shiftRight_eq_div_pow]
  omega

@[simp] theorem lowByte_joinBytes (lo hi : Byte) : lowByte (joinBytes lo hi) = lo := by
  apply BitVec.eq_of_toNat_eq
  have := lo.isLt
  rw [lowByte_toNat, joinBytes_toNat]; omega

@[simp] theorem highByte_joinBytes (lo hi : Byte) : highByte (joinBytes lo hi) = hi := by
  apply BitVec.eq_of_toNat_eq
  have := lo.isLt
  rw [highByte_toNat, joinBytes_toNat]; omega

@[simp] theorem zext16_toNat (b : Byte) : (zext16 b).toNat = b.toNat := by
  have := b.isLt
  simp only [zext16, BitVec.toNat_setWidth]; omega

theorem length_eq_operandBytes (o : Opcode) : o.length = 1 + o.operandBytes := rfl

/-- A 16-bit field, written low byte first, is read back. -/
theorem readWord_bytes (w : Word) (rest : List Byte) :
    readWord nextByte (lowByte w :: highByte w :: rest) = (w, rest) := by simp [readWord, nextByte]

theorem readA_bytes (mk : Word → Instr) (a : Word) (rest : List Byte) :
    readA nextByte mk ([lowByte a, highByte a] ++ rest) = (mk a, rest) := by simp [readA, readWord_bytes]

theorem readRA_bytes (mk : Byte → Word → Instr) (r : Byte) (a : Word) (rest : List Byte) :
    readRA nextByte mk ([r, lowByte a, highByte a] ++ rest) = (mk r a, rest) := by
  simp [readRA, nextByte, readWord_bytes]

theorem readPR_bytes (mk : Word → Byte → Instr) (p : Word) (r : Byte) (rest : List Byte) :
    readPR nextByte mk ([lowByte p, highByte p, r] ++ rest) = (mk p r, rest) := by
  simp [readPR, readWord_bytes, nextByte]

end Sys2Proof
end

