-- ==== Sys2Proof/Laws/State.lean ====
section
/-! SUPPORT. What each update of a state leaves in each field, so that no later proof unfolds an update. -/

namespace Sys2Proof.Machine

variable (s : State) (a c : Reg) (v : Word) (b : Byte) (e : Event)

@[simp] theorem reg_r0 : s.reg .r0 = s.r0 := rfl
@[simp] theorem reg_r1 : s.reg .r1 = s.r1 := rfl
@[simp] theorem reg_r2 : s.reg .r2 = s.r2 := rfl
@[simp] theorem reg_r3 : s.reg .r3 = s.r3 := rfl
@[simp] theorem reg_pc : s.reg .pc = s.pc := rfl
@[simp] theorem reg_sp : s.reg .sp = s.sp := rfl
@[simp] theorem reg_fl : s.reg .fl = s.fl := rfl

@[simp] theorem reg_mk (x0 x1 x2 x3 pc sp fl : Word) (h : Bool) (m : Memory) (o : List Event) (c : Reg) :
    (State.mk x0 x1 x2 x3 pc sp fl h m o).reg c
      = match c with | .r0 => x0 | .r1 => x1 | .r2 => x2 | .r3 => x3 | .pc => pc | .sp => sp | .fl => fl := by
  cases c <;> rfl

/-- The register file as one array: a write is read back, and changes no other register. -/
theorem reg_setReg : (s.setReg a v).reg c = if c = a then v else s.reg c := by
  cases a <;> cases c <;> rfl

@[simp] theorem reg_setReg_same : (s.setReg a v).reg a = v := by cases a <;> rfl
theorem reg_setReg_other (h : c ≠ a) : (s.setReg a v).reg c = s.reg c := by simp [reg_setReg, h]
@[simp] theorem setReg_pc_same : (s.setReg .pc v).pc = v := rfl
@[simp] theorem setReg_sp_same : (s.setReg .sp v).sp = v := rfl
@[simp] theorem setReg_fl_same : (s.setReg .fl v).fl = v := rfl
theorem setReg_pc_other (h : a ≠ .pc) : (s.setReg a v).pc = s.pc := reg_setReg_other s a .pc v h.symm
theorem setReg_sp_other (h : a ≠ .sp) : (s.setReg a v).sp = s.sp := reg_setReg_other s a .sp v h.symm
theorem setReg_fl_other (h : a ≠ .fl) : (s.setReg a v).fl = s.fl := reg_setReg_other s a .fl v h.symm
@[simp] theorem setReg_halted : (s.setReg a v).halted = s.halted := by cases a <;> rfl
@[simp] theorem setReg_mem : (s.setReg a v).mem = s.mem := by cases a <;> rfl
@[simp] theorem setReg_out : (s.setReg a v).out = s.out := by cases a <;> rfl

@[simp] theorem emit_reg : (s.emit e).reg c = s.reg c := by cases c <;> rfl
@[simp] theorem emit_r0 : (s.emit e).r0 = s.r0 := rfl
@[simp] theorem emit_r1 : (s.emit e).r1 = s.r1 := rfl
@[simp] theorem emit_r2 : (s.emit e).r2 = s.r2 := rfl
@[simp] theorem emit_r3 : (s.emit e).r3 = s.r3 := rfl
@[simp] theorem emit_pc : (s.emit e).pc = s.pc := rfl
@[simp] theorem emit_sp : (s.emit e).sp = s.sp := rfl
@[simp] theorem emit_fl : (s.emit e).fl = s.fl := rfl
@[simp] theorem emit_halted : (s.emit e).halted = s.halted := rfl
@[simp] theorem emit_mem : (s.emit e).mem = s.mem := rfl
@[simp] theorem emit_out : (s.emit e).out = s.out ++ [e] := rfl

@[simp] theorem memWrite_reg : (s.memWrite v b).reg c = s.reg c := by cases c <;> rfl
@[simp] theorem memWrite_r0 : (s.memWrite v b).r0 = s.r0 := rfl
@[simp] theorem memWrite_r1 : (s.memWrite v b).r1 = s.r1 := rfl
@[simp] theorem memWrite_r2 : (s.memWrite v b).r2 = s.r2 := rfl
@[simp] theorem memWrite_r3 : (s.memWrite v b).r3 = s.r3 := rfl
@[simp] theorem memWrite_pc : (s.memWrite v b).pc = s.pc := rfl
@[simp] theorem memWrite_sp : (s.memWrite v b).sp = s.sp := rfl
@[simp] theorem memWrite_fl : (s.memWrite v b).fl = s.fl := rfl
@[simp] theorem memWrite_halted : (s.memWrite v b).halted = s.halted := rfl
@[simp] theorem memWrite_mem : (s.memWrite v b).mem = s.mem.set v b := rfl
@[simp] theorem memWrite_out : (s.memWrite v b).out = s.out ++ portEvents v b := rfl

@[simp] theorem decSp_r0 : (s.decSp).r0 = s.r0 := rfl
@[simp] theorem decSp_r1 : (s.decSp).r1 = s.r1 := rfl
@[simp] theorem decSp_r2 : (s.decSp).r2 = s.r2 := rfl
@[simp] theorem decSp_r3 : (s.decSp).r3 = s.r3 := rfl
@[simp] theorem decSp_sp : s.decSp.sp = s.sp - 1#16 := rfl
@[simp] theorem decSp_pc : s.decSp.pc = s.pc := rfl
@[simp] theorem decSp_fl : s.decSp.fl = s.fl := rfl
@[simp] theorem decSp_halted : s.decSp.halted = s.halted := rfl
@[simp] theorem decSp_mem : s.decSp.mem = s.mem := rfl
@[simp] theorem decSp_out : s.decSp.out = s.out := rfl
theorem decSp_reg_other (h : c ≠ .sp) : s.decSp.reg c = s.reg c := by cases c <;> first | rfl | exact absurd rfl h

@[simp] theorem incSp_r0 : (s.incSp).r0 = s.r0 := rfl
@[simp] theorem incSp_r1 : (s.incSp).r1 = s.r1 := rfl
@[simp] theorem incSp_r2 : (s.incSp).r2 = s.r2 := rfl
@[simp] theorem incSp_r3 : (s.incSp).r3 = s.r3 := rfl
@[simp] theorem incSp_sp : s.incSp.sp = s.sp + 1#16 := rfl
@[simp] theorem incSp_pc : s.incSp.pc = s.pc := rfl
@[simp] theorem incSp_fl : s.incSp.fl = s.fl := rfl
@[simp] theorem incSp_halted : s.incSp.halted = s.halted := rfl
@[simp] theorem incSp_mem : s.incSp.mem = s.mem := rfl
@[simp] theorem incSp_out : s.incSp.out = s.out := rfl
theorem incSp_reg_other (h : c ≠ .sp) : s.incSp.reg c = s.reg c := by cases c <;> first | rfl | exact absurd rfl h

@[simp] theorem setZ_r0 : (s.setZ v).r0 = s.r0 := rfl
@[simp] theorem setZ_r1 : (s.setZ v).r1 = s.r1 := rfl
@[simp] theorem setZ_r2 : (s.setZ v).r2 = s.r2 := rfl
@[simp] theorem setZ_r3 : (s.setZ v).r3 = s.r3 := rfl
@[simp] theorem setZ_fl : (s.setZ v).fl = zeroFlag s.fl v := rfl
@[simp] theorem setZ_pc : (s.setZ v).pc = s.pc := rfl
@[simp] theorem setZ_sp : (s.setZ v).sp = s.sp := rfl
@[simp] theorem setZ_halted : (s.setZ v).halted = s.halted := rfl
@[simp] theorem setZ_mem : (s.setZ v).mem = s.mem := rfl
@[simp] theorem setZ_out : (s.setZ v).out = s.out := rfl
theorem setZ_reg_other (h : c ≠ .fl) : (s.setZ v).reg c = s.reg c := by cases c <;> first | rfl | exact absurd rfl h

@[simp] theorem pushByte_r0 : (s.pushByte b).r0 = s.r0 := rfl
@[simp] theorem pushByte_r1 : (s.pushByte b).r1 = s.r1 := rfl
@[simp] theorem pushByte_r2 : (s.pushByte b).r2 = s.r2 := rfl
@[simp] theorem pushByte_r3 : (s.pushByte b).r3 = s.r3 := rfl
@[simp] theorem pushByte_sp : (s.pushByte b).sp = s.sp - 1#16 := rfl
@[simp] theorem pushByte_pc : (s.pushByte b).pc = s.pc := rfl
@[simp] theorem pushByte_fl : (s.pushByte b).fl = s.fl := rfl
@[simp] theorem pushByte_halted : (s.pushByte b).halted = s.halted := rfl
@[simp] theorem pushByte_mem : (s.pushByte b).mem = s.mem.set (s.sp - 1#16) b := rfl
@[simp] theorem pushByte_out : (s.pushByte b).out = s.out ++ portEvents (s.sp - 1#16) b := rfl
theorem pushByte_reg_other (h : c ≠ .sp) : (s.pushByte b).reg c = s.reg c := by
  cases c <;> first | rfl | exact absurd rfl h

@[simp] theorem popByte_fst : s.popByte.1 = s.memRead s.sp := rfl
@[simp] theorem popByte_snd : s.popByte.2 = s.incSp := rfl

@[simp] theorem jumpIf_pc (t : Bool) : (jumpIf t v s).pc = if t then v else s.pc := by cases t <;> rfl
@[simp] theorem jumpIf_sp (t : Bool) : (jumpIf t v s).sp = s.sp := by cases t <;> rfl
@[simp] theorem jumpIf_fl (t : Bool) : (jumpIf t v s).fl = s.fl := by cases t <;> rfl
@[simp] theorem jumpIf_halted (t : Bool) : (jumpIf t v s).halted = s.halted := by cases t <;> rfl
@[simp] theorem jumpIf_mem (t : Bool) : (jumpIf t v s).mem = s.mem := by cases t <;> rfl
@[simp] theorem jumpIf_out (t : Bool) : (jumpIf t v s).out = s.out := by cases t <;> rfl
theorem jumpIf_reg_other (t : Bool) (h : c ≠ .pc) : (jumpIf t v s).reg c = s.reg c := by
  cases t <;> cases c <;> first | rfl | exact absurd rfl h

@[simp] theorem raise_reg : (raiseUnknownOpcode b s).reg c = s.reg c := by cases c <;> rfl
@[simp] theorem raise_r0 : (raiseUnknownOpcode b s).r0 = s.r0 := rfl
@[simp] theorem raise_r1 : (raiseUnknownOpcode b s).r1 = s.r1 := rfl
@[simp] theorem raise_r2 : (raiseUnknownOpcode b s).r2 = s.r2 := rfl
@[simp] theorem raise_r3 : (raiseUnknownOpcode b s).r3 = s.r3 := rfl
@[simp] theorem raise_pc : (raiseUnknownOpcode b s).pc = s.pc := rfl
@[simp] theorem raise_sp : (raiseUnknownOpcode b s).sp = s.sp := rfl
@[simp] theorem raise_fl : (raiseUnknownOpcode b s).fl = s.fl := rfl
@[simp] theorem raise_halted : (raiseUnknownOpcode b s).halted = true := rfl
@[simp] theorem raise_mem : (raiseUnknownOpcode b s).mem = s.mem := rfl
@[simp] theorem raise_out : (raiseUnknownOpcode b s).out = s.out ++ [.diag b] := rfl

@[simp] theorem resetCpu_reg : (resetCpu s).reg c = 0x0000#16 := by cases c <;> rfl
@[simp] theorem resetCpu_pc : (resetCpu s).pc = 0x0000#16 := rfl
@[simp] theorem resetCpu_r0 : (resetCpu s).r0 = 0x0000#16 := rfl
@[simp] theorem resetCpu_r1 : (resetCpu s).r1 = 0x0000#16 := rfl
@[simp] theorem resetCpu_r2 : (resetCpu s).r2 = 0x0000#16 := rfl
@[simp] theorem resetCpu_r3 : (resetCpu s).r3 = 0x0000#16 := rfl
@[simp] theorem resetCpu_sp : (resetCpu s).sp = 0x0000#16 := rfl
@[simp] theorem resetCpu_fl : (resetCpu s).fl = 0x0000#16 := rfl
@[simp] theorem resetCpu_halted : (resetCpu s).halted = false := rfl
@[simp] theorem resetCpu_mem : (resetCpu s).mem = s.mem := rfl
@[simp] theorem resetCpu_out : (resetCpu s).out = s.out := rfl

@[simp] theorem memRead_incSp : s.incSp.memRead v = s.memRead v := rfl
@[simp] theorem memRead_decSp : s.decSp.memRead v = s.memRead v := rfl
@[simp] theorem memRead_emit : (s.emit e).memRead v = s.memRead v := rfl
@[simp] theorem memRead_setReg (w : Word) : (s.setReg a v).memRead w = s.memRead w := by cases a <;> rfl

end Sys2Proof.Machine
end

