-- ==== Sys2Proof/Laws/Memory.lean ====
section
/-! SUPPORT. The memory: what a cell reads after a write, and the canonical form every operation keeps. The read laws hold
of every list of cells, canonical or not. -/

namespace Sys2Proof.Machine

theorem lookup_filter (m : Memory) (a k : Nat) :
    Memory.lookup (m.filter fun c => c.1 != a) k = if k = a then Memory.unlisted else Memory.lookup m k := by
  induction m with
  | nil => simp [Memory.lookup]
  | cons c m ih =>
    by_cases hc : c.1 = a
    · rw [List.filter_cons_of_neg (by simp [hc]), ih]
      by_cases hk : k = a
      · simp [hk]
      · simp [Memory.lookup, hc, hk, Ne.symm hk]
    · rw [List.filter_cons_of_pos (by simp [hc])]
      by_cases hk : c.1 = k
      · simp [Memory.lookup, hk, show k ≠ a from hk ▸ hc]
      · simpa [Memory.lookup, hk] using ih

theorem lookup_insertCell (a : Nat) (b : Byte) (m : Memory) (k : Nat) (h : Memory.lookup m a = Memory.unlisted ∧ ∀ c ∈ m, c.1 ≠ a) :
    Memory.lookup (Memory.insertCell a b m) k = if k = a then b else Memory.lookup m k := by
  induction m with
  | nil => simp [Memory.insertCell, Memory.lookup, eq_comm]
  | cons c m ih =>
    have hc : c.1 ≠ a := h.2 c (by simp)
    have hm : Memory.lookup m a = Memory.unlisted := by simpa [Memory.lookup, hc] using h.1
    have ih := ih ⟨hm, fun d hd => h.2 d (by simp [hd])⟩
    unfold Memory.insertCell
    split
    · simp [Memory.lookup, eq_comm]
    · by_cases hk : c.1 = k
      · simp [Memory.lookup, hk, show k ≠ a from hk ▸ hc]
      · simpa [Memory.lookup, hk] using ih

/-- The read law of the cells. -/
theorem lookup_replace (m : Memory) (a : Nat) (b : Byte) (k : Nat) :
    Memory.lookup (Memory.replace m a b) k = if k = a then b else Memory.lookup m k := by
  unfold Memory.replace
  by_cases hb : b = Memory.unlisted
  · simp [hb, lookup_filter]
  · simp only [hb, if_false]
    rw [lookup_insertCell, lookup_filter]
    · by_cases hk : k = a <;> simp [hk]
    · exact ⟨by simp [lookup_filter], fun c hc => by simpa using (List.mem_filter.mp hc).2⟩

/-- A cell after a write: the written byte at its address, the old byte anywhere else. -/
theorem get_set (m : Memory) (a : Word) (b : Byte) (c : Word) :
    (m.set a b).get c = if c = a then b else m.get c := by
  simp [Memory.get, Memory.set, lookup_replace, BitVec.toNat_inj]

@[simp] theorem get_set_same (m : Memory) (a : Word) (b : Byte) : (m.set a b).get a = b := by simp [get_set]

theorem get_set_other (m : Memory) {a c : Word} (b : Byte) (h : c ≠ a) : (m.set a b).get c = m.get c := by
  simp [get_set, h]

/-- The canonical form of a nonempty list. -/
theorem wf_cons (c : Host.Cell) (m : Memory) :
    Memory.wf (c :: m) = true ↔
      c.1 < 65536 ∧ c.2 ≠ Memory.unlisted ∧ (∀ d ∈ m, c.1 < d.1) ∧ Memory.wf m = true := by
  simp [Memory.wf, and_assoc]

theorem wf_filter (m : Memory) (p : Host.Cell → Bool) (h : Memory.wf m = true) : Memory.wf (m.filter p) = true := by
  induction m with
  | nil => rfl
  | cons c m ih =>
    obtain ⟨h1, h2, h3, h4⟩ := (wf_cons c m).mp h
    by_cases hp : p c
    · rw [List.filter_cons_of_pos hp]
      exact (wf_cons _ _).mpr ⟨h1, h2, fun d hd => h3 d (List.mem_filter.mp hd).1, ih h4⟩
    · rw [List.filter_cons_of_neg hp]
      exact ih h4

theorem mem_insertCell (a : Nat) (b : Byte) (m : Memory) (d : Host.Cell) :
    d ∈ Memory.insertCell a b m ↔ d = (a, b) ∨ d ∈ m := by
  induction m with
  | nil => simp [Memory.insertCell]
  | cons c m ih =>
    unfold Memory.insertCell
    split
    · simp
    · simp [ih, or_left_comm]

theorem wf_insertCell (a : Nat) (b : Byte) (m : Memory) (ha : a < 65536) (hb : b ≠ Memory.unlisted)
    (hm : ∀ c ∈ m, c.1 ≠ a) (h : Memory.wf m = true) : Memory.wf (Memory.insertCell a b m) = true := by
  induction m with
  | nil => exact (wf_cons _ _).mpr ⟨ha, hb, by simp, rfl⟩
  | cons c m ih =>
    obtain ⟨h1, h2, h3, h4⟩ := (wf_cons c m).mp h
    unfold Memory.insertCell
    split
    · rename_i hlt
      refine (wf_cons _ _).mpr ⟨ha, hb, ?_, h⟩
      intro d hd
      rcases List.mem_cons.mp hd with rfl | hd
      · exact hlt
      · exact lt_trans hlt (h3 d hd)
    · rename_i hlt
      refine (wf_cons _ _).mpr ⟨h1, h2, ?_, ih (fun d hd => hm d (by simp [hd])) h4⟩
      intro d hd
      rcases (mem_insertCell a b m d).mp hd with rfl | hd
      · exact lt_of_le_of_ne (not_lt.mp hlt) (hm c (by simp))
      · exact h3 d hd

/-- Every write keeps the canonical form. -/
theorem wf_set (m : Memory) (a : Word) (b : Byte) (h : Memory.wf m = true) : Memory.wf (m.set a b) = true := by
  unfold Memory.set Memory.replace
  by_cases hb : b = Memory.unlisted
  · simpa [hb] using wf_filter m _ h
  · simp only [hb, if_false]
    exact wf_insertCell _ _ _ a.isLt hb (fun c hc => by simpa using (List.mem_filter.mp hc).2) (wf_filter m _ h)

theorem wf_memWrite (s : State) (a : Word) (b : Byte) (h : Memory.wf s.mem = true) :
    Memory.wf (s.memWrite a b).mem = true := wf_set s.mem a b h

theorem wf_pushByte (s : State) (b : Byte) (h : Memory.wf s.mem = true) : Memory.wf (s.pushByte b).mem = true :=
  wf_set s.mem _ b h

theorem wf_placeBytes (bs : List Byte) (a : Word) (s : State) (h : Memory.wf s.mem = true) :
    Memory.wf (placeBytes bs a s).mem = true := by
  induction bs generalizing a s with
  | nil => exact h
  | cons b bs ih => exact ih _ _ (wf_set s.mem a b h)

theorem wf_loadBytes (fires : Bool) (bs : List Byte) (a : Nat) (s : State) (h : Memory.wf s.mem = true) :
    Memory.wf (loadBytes fires bs a s).mem = true := by
  induction bs generalizing a s with
  | nil => exact h
  | cons b bs ih => cases fires <;> exact ih _ _ (wf_set s.mem _ b h)

theorem wf_reset : Memory.wf State.reset.mem = true := rfl

/-- The read of the memory interface, spelled out. -/
theorem memRead_eq (s : State) (a : Word) : s.memRead a = if a = charPort then 0#8 else s.mem.get a := by
  simp [State.memRead, selChar]

@[simp] theorem memRead_charPort (s : State) : s.memRead charPort = 0#8 := by simp [memRead_eq]

theorem memRead_plain (s : State) {a : Word} (h : a ≠ charPort) : s.memRead a = s.mem.get a := by
  simp [memRead_eq, h]

theorem portEvents_eq (a : Word) (b : Byte) :
    portEvents a b = if a = charPort then [.char b] else if a = decPort then [.dec b] else [] := by
  by_cases h : a = charPort
  · subst h; simp [portEvents, selChar, selDec, charPort, decPort]
  · simp [portEvents, selChar, selDec, h]

end Sys2Proof.Machine
end

