-- ==== Sys2Proof/Laws/Fetch.lean ====
section
/-! SUPPORT. What the fetch of bytes, fields and operands answers. -/

namespace Sys2Proof.Machine

@[simp] theorem fetch8_fst (s : State) : (fetch8 s).1 = s.memRead s.pc := rfl
@[simp] theorem fetch8_snd (s : State) : (fetch8 s).2 = { s with pc := s.pc + 1#16 } := rfl

/-- Moving `pc` changes no read. -/
@[simp] theorem memRead_setPc (s : State) (v a : Word) : ({ s with pc := v } : State).memRead a = s.memRead a := rfl

@[simp] theorem bytesFrom_length (s : State) (n : Nat) (a : Word) : (bytesFrom s n a).length = n := by
  induction n generalizing a with
  | zero => rfl
  | succ n ih => simp [bytesFrom, ih]

/-- Moving `pc` changes no byte to be fetched from a given address. -/
@[simp] theorem bytesFrom_setPc (s : State) (v : Word) (n : Nat) (a : Word) :
    bytesFrom { s with pc := v } n a = bytesFrom s n a := by
  induction n generalizing a with
  | zero => rfl
  | succ n ih => simp [bytesFrom, ih]

/-- Reading the operands of an opcode from memory gives what reading them from the bytes at `pc` gives, and moves `pc` past
them. -/
theorem readOperands_fetch8 (o : Opcode) (s : State) (n : Nat) :
    readOperands fetch8 o s =
      ((readOperands nextByte o (bytesFrom s (o.operandBytes + n) s.pc)).1,
        { s with pc := s.pc + BitVec.ofNat 16 o.operandBytes }) := by
  cases o <;>
    simp [readOperands, readR, readA, readRR, readRA, readPR, readWord, Opcode.operandBytes, bytesFrom, nextByte, Nat.add_comm,
      BitVec.add_assoc]

/-- All that the fetch of one instruction can answer. -/
theorem fetchInstr_cases (s : State) :
    (∃ b, b = s.memRead s.pc ∧ Opcode.ofByte b = none ∧
      fetchInstr s = (.unknownOpcode b, { s with pc := s.pc + 1#16 })) ∨
    (∃ o i, Opcode.ofByte (s.memRead s.pc) = some o ∧ i.opcode = o ∧
      fetchInstr s = (.instr i, { s with pc := s.pc + BitVec.ofNat 16 o.length })) := by
  cases h : Opcode.ofByte (s.memRead s.pc) with
  | none => exact .inl ⟨_, rfl, h, by simp [fetchInstr, h]⟩
  | some o =>
    refine .inr ⟨o, (readOperands fetch8 o (fetch8 s).2).1, rfl, ?_, ?_⟩
    · cases o <;> rfl
    · simp only [fetchInstr, fetch8_fst, h]
      rw [readOperands_fetch8 o _ 0]
      cases o <;> simp [Opcode.length, Opcode.operandBytes, BitVec.add_assoc]

end Sys2Proof.Machine
end

