-- ==== Sys2Proof/Laws/Operands.lean ====
section
/-! SUPPORT. Register bytes, and everything an operation on one or two register operands can answer. -/

namespace Sys2Proof.Machine

@[simp] theorem regOf_regByte (a : Reg) : regOf (regByte a) = some a := by cases a <;> rfl

theorem regByte_of_regOf {r : Byte} {a : Reg} (h : regOf r = some a) : regByte a = r := by
  simpa using List.find?_some h

/-- The model's lookup and the spec's test agree on every register byte. -/
theorem regOf_isSome_iff_valid (r : Byte) : (regOf r).isSome = validReg r := by
  revert r; decide

theorem regOf_eq_none_iff (r : Byte) : regOf r = none ↔ 6 < r.toNat := by
  have h := regOf_isSome_iff_valid r
  cases hr : regOf r <;> simp [hr, validReg] at h ⊢ <;> omega

@[simp] theorem onInvalidReg_default (r : Byte) (s : State) :
    onInvalidReg config.invalidRegPolicy r s = .next s := rfl

@[simp] theorem withReg_valid (a : Reg) (s : State) (op : Reg → State) :
    withReg (regByte a) s op = .next (op a) := by simp [withReg]

@[simp] theorem withRegs_valid (a b : Reg) (s : State) (op : Reg → Reg → State) :
    withRegs (regByte a) (regByte b) s op = .next (op a b) := by simp [withRegs]

theorem withReg_invalid {r : Byte} (h : regOf r = none) (s : State) (op : Reg → State) :
    withReg r s op = .next s := by simp [withReg, h]

theorem withRegs_invalid {r1 r2 : Byte} (h : regOf r1 = none ∨ regOf r2 = none) (s : State) (op : Reg → Reg → State) :
    withRegs r1 r2 s op = .next s := by
  unfold withRegs
  cases h1 : regOf r1 <;> cases h2 : regOf r2 <;> simp_all

/-- All that an operation on one register byte can answer. -/
theorem withReg_next {r : Byte} {s t : State} {op : Reg → State} (h : withReg r s op = .next t) :
    (∃ a, regOf r = some a ∧ t = op a) ∨ (regOf r = none ∧ t = s) := by
  cases hr : regOf r with
  | some a => exact .inl ⟨a, rfl, by simpa [withReg, hr, eq_comm] using h⟩
  | none => exact .inr ⟨rfl, by simpa [withReg, hr, eq_comm] using h⟩

/-- All that an operation on two register bytes can answer. -/
theorem withRegs_next {r1 r2 : Byte} {s t : State} {op : Reg → Reg → State} (h : withRegs r1 r2 s op = .next t) :
    (∃ a b, regOf r1 = some a ∧ regOf r2 = some b ∧ t = op a b) ∨ ((regOf r1 = none ∨ regOf r2 = none) ∧ t = s) := by
  cases h1 : regOf r1 with
  | none => rw [withRegs_invalid (.inl h1)] at h; exact .inr ⟨.inl rfl, by simpa [eq_comm] using h⟩
  | some a =>
    cases h2 : regOf r2 with
    | none => rw [withRegs_invalid (.inr h2)] at h; exact .inr ⟨.inr rfl, by simpa [eq_comm] using h⟩
    | some b => exact .inl ⟨a, b, rfl, rfl, by simpa [withRegs, h1, h2, eq_comm] using h⟩

/-- All that the store of a register's low byte can answer. -/
theorem storeLow_next {r : Byte} {addr : Word} {s t : State} (h : storeLow r addr s = .next t) :
    (∃ a, regOf r = some a ∧ t = s.memWrite addr (lowByte (s.reg a))) ∨ (regOf r = none ∧ t = s) :=
  withReg_next h

/-- IN raises the one exception under the default parameter. -/
theorem execIn_eq (s : State) : execIn s = .next (raiseUnknownOpcode (config.opcodeMap .inOp) s) := rfl

end Sys2Proof.Machine
end

