-- ==== Sys2Proof/Laws/Flags.lean ====
section
/-! SUPPORT. The zero flag, and what the arithmetic skeleton answers. -/

namespace Sys2Proof.Machine

/-- `setZ` makes bit 0 say whether the result is zero. -/
theorem zeroFlag_bit0 (fl res : Word) : (zeroFlag fl res).getLsbD 0 = decide (res = 0x0000#16) := by
  unfold zeroFlag
  split <;> simp_all

/-- `setZ` keeps bits 15:1. -/
theorem zeroFlag_high (fl res : Word) (k : Nat) (h : 0 < k) : (zeroFlag fl res).getLsbD k = fl.getLsbD k := by
  unfold zeroFlag
  have h1 : (0x0001#16).getLsbD k = false := by
    rcases Nat.lt_or_ge k 16 with hk | hk
    · interval_cases k <;> rfl
    · exact BitVec.getLsbD_of_ge _ _ hk
  split
  · simp [BitVec.getLsbD_or, h1]
  · rcases Nat.lt_or_ge k 16 with hk | hk
    · have h2 : (0xFFFE#16).getLsbD k = true := by interval_cases k <;> rfl
      simp [BitVec.getLsbD_and, h2]
    · simp [BitVec.getLsbD_of_ge _ _ hk]

@[simp] theorem setZ_zero (s : State) (res : Word) : (s.setZ res).zero = decide (res = 0x0000#16) :=
  zeroFlag_bit0 s.fl res

/-- All that the arithmetic skeleton can answer. -/
theorem aluOp_next {f : Word → Word → Word} {store : Bool} {r1 r2 : Byte} {s t : State}
    (h : aluOp f store r1 r2 s = .next t) :
    (∃ a b, regOf r1 = some a ∧ regOf r2 = some b ∧
      t = (if store then s.setReg a (f (s.reg a) (s.reg b)) else s).setZ (f (s.reg a) (s.reg b))) ∨
    ((regOf r1 = none ∨ regOf r2 = none) ∧ t = s) :=
  withRegs_next h

end Sys2Proof.Machine
end

