-- ==== Sys2Proof/Laws/PerInstr.lean ====
section
/-! SUPPORT. What holds of every instruction as syntax, one lemma per constructor: the operand bytes it encodes to are as
many as its opcode's format has, and reading them gives the instruction back and leaves what follows. -/

namespace Sys2Proof.Laws.OperandBytes

/-- The operands of an instruction, encoded and read back. -/
def Statement (i : Instr) : Prop :=
  (encodeOperands i).length = i.opcode.operandBytes ∧
    ∀ rest, readOperands nextByte i.opcode (encodeOperands i ++ rest) = (i, rest)

theorem nop : Statement .nop := ⟨rfl, fun _ => rfl⟩
theorem load (r : Byte) (a : Word) : Statement (.load r a) := ⟨rfl, readRA_bytes .load r a⟩
theorem store (r : Byte) (a : Word) : Statement (.store r a) := ⟨rfl, readRA_bytes .store r a⟩
theorem mov (r1 r2 : Byte) : Statement (.mov r1 r2) := ⟨rfl, fun _ => rfl⟩
theorem movi (r : Byte) (v : Word) : Statement (.movi r v) := ⟨rfl, readRA_bytes .movi r v⟩
theorem add (r1 r2 : Byte) : Statement (.add r1 r2) := ⟨rfl, fun _ => rfl⟩
theorem sub (r1 r2 : Byte) : Statement (.sub r1 r2) := ⟨rfl, fun _ => rfl⟩
theorem cmp (r1 r2 : Byte) : Statement (.cmp r1 r2) := ⟨rfl, fun _ => rfl⟩
theorem jmp (a : Word) : Statement (.jmp a) := ⟨rfl, readA_bytes .jmp a⟩
theorem jz (a : Word) : Statement (.jz a) := ⟨rfl, readA_bytes .jz a⟩
theorem jnz (a : Word) : Statement (.jnz a) := ⟨rfl, readA_bytes .jnz a⟩
theorem inOp : Statement .inOp := ⟨rfl, fun _ => rfl⟩
theorem out (p : Word) (r : Byte) : Statement (.out p r) := ⟨rfl, readPR_bytes .out p r⟩
theorem push (r : Byte) : Statement (.push r) := ⟨rfl, fun _ => rfl⟩
theorem pop (r : Byte) : Statement (.pop r) := ⟨rfl, fun _ => rfl⟩
theorem call (a : Word) : Statement (.call a) := ⟨rfl, readA_bytes .call a⟩
theorem ret : Statement .ret := ⟨rfl, fun _ => rfl⟩
theorem mul (r1 r2 : Byte) : Statement (.mul r1 r2) := ⟨rfl, fun _ => rfl⟩
theorem halt : Statement .halt := ⟨rfl, fun _ => rfl⟩

end Sys2Proof.Laws.OperandBytes
end

