-- ==== Sys2Proof/Laws/Step.lean ====
section
/-! SUPPORT. All that a step can do, said once. -/

namespace Sys2Proof.Machine

/-- A step does nothing (halted), raises the one exception, or executes an instruction on the state after its fetch. -/
theorem step_cases (s : State) :
    (s.halted = true ∧ step s = .next s) ∨
    (s.halted = false ∧ ∃ b, b = s.memRead s.pc ∧ Opcode.ofByte b = none ∧
      step s = .next (raiseUnknownOpcode b { s with pc := s.pc + 1#16 })) ∨
    (s.halted = false ∧ ∃ o i, Opcode.ofByte (s.memRead s.pc) = some o ∧ i.opcode = o ∧
      step s = exec i { s with pc := s.pc + BitVec.ofNat 16 o.length }) := by
  cases hh : s.halted with
  | true => exact .inl ⟨rfl, by simp [step, hh]⟩
  | false =>
    right
    rcases fetchInstr_cases s with ⟨b, hb, ho, hf⟩ | ⟨o, i, ho, hi, hf⟩
    · exact .inl ⟨rfl, b, hb, ho, by simp [step, hh, hf]⟩
    · exact .inr ⟨rfl, o, i, ho, hi, by simp [step, hh, hf]⟩

end Sys2Proof.Machine
end

