-- ==== Sys2Proof/Tests/Slice0.lean ====
section
/-! SUPPORT. Small tests: words and vectors of spec/95_test_vectors.md (E1 to E8, V1 to V52), each on one step of a small
state, the ill-formed terms WellFormed refuses, and a witness for the hypotheses of each statement. -/

namespace Sys2Proof.Tests

open Sys2Proof Sys2Proof.Machine

/-- The bytes of an instruction placed at an address, and `pc` there. -/
def placed (pc : Word) (bytes : List Byte) (s : State) : State := placeBytes bytes pc { s with pc := pc }

/-- The next state of a step, or `none`. -/
def after (s : State) : Option State :=
  match step s with
  | .next t => some t
  | .fault _ => none
  | .refused _ => none

/-! WellFormed: one ill-formed term for each register byte it checks. -/

theorem test_wf_valid_bounds : validReg 0#8 = true ∧ validReg 6#8 = true ∧ validReg 7#8 = false ∧ validReg 255#8 = false := by
  decide
theorem test_wf_load : (Instr.load 7#8 0#16).wf = false := by decide
theorem test_wf_store : (Instr.store 8#8 0#16).wf = false := by decide
theorem test_wf_mov_first : (Instr.mov 7#8 0#8).wf = false := by decide
theorem test_wf_mov_second : (Instr.mov 0#8 7#8).wf = false := by decide
theorem test_wf_movi : (Instr.movi 7#8 0#16).wf = false := by decide
theorem test_wf_add_second : (Instr.add 0#8 0xFF#8).wf = false := by decide
theorem test_wf_sub_first : (Instr.sub 0x80#8 0#8).wf = false := by decide
theorem test_wf_cmp_second : (Instr.cmp 6#8 7#8).wf = false := by decide
theorem test_wf_mul_first : (Instr.mul 7#8 6#8).wf = false := by decide
theorem test_wf_out : (Instr.out 0#16 0x80#8).wf = false := by decide
theorem test_wf_push : (Instr.push 9#8).wf = false := by decide
theorem test_wf_pop : (Instr.pop 7#8).wf = false := by decide
theorem test_wf_holds : (Instr.add 0#8 6#8).wf = true ∧ (Instr.jmp 0xFFFF#16).wf = true := by decide

/-! Decoding: the bytes of E8, written out from the encodings of R51 and R52. -/

theorem test_decode_nop : decode [0b00000000#8] = .instr .nop [] := by decide
theorem test_decode_load : decode [0b00000001#8, 0x01#8, 0x34#8, 0x12#8] = .instr (.load 1#8 0x1234#16) [] := by decide
theorem test_decode_store : decode [0b00000010#8, 0x02#8, 0xCD#8, 0xAB#8] = .instr (.store 2#8 0xABCD#16) [] := by decide
theorem test_decode_mov : decode [0b00000011#8, 0x03#8, 0x00#8] = .instr (.mov 3#8 0#8) [] := by decide
theorem test_decode_movi : decode [0b00000100#8, 0x05#8, 0x00#8, 0xFE#8] = .instr (.movi 5#8 0xFE00#16) [] := by decide
theorem test_decode_add : decode [0b00000101#8, 0x00#8, 0x01#8] = .instr (.add 0#8 1#8) [] := by decide
theorem test_decode_sub : decode [0b00000110#8, 0x01#8, 0x02#8] = .instr (.sub 1#8 2#8) [] := by decide
theorem test_decode_cmp : decode [0b00000111#8, 0x02#8, 0x03#8] = .instr (.cmp 2#8 3#8) [] := by decide
theorem test_decode_jmp : decode [0b00001000#8, 0x02#8, 0x01#8] = .instr (.jmp 0x0102#16) [] := by decide
theorem test_decode_jz : decode [0b00001001#8, 0xFF#8, 0x00#8] = .instr (.jz 0x00FF#16) [] := by decide
theorem test_decode_jnz : decode [0b00001010#8, 0x00#8, 0xFF#8] = .instr (.jnz 0xFF00#16) [] := by decide
theorem test_decode_in : decode [0b00001011#8, 0x00#8] = .instr .inOp [0x00#8] := by decide
theorem test_decode_out : decode [0b00001100#8, 0x01#8, 0xFF#8, 0x03#8] = .instr (.out 0xFF01#16 3#8) [] := by decide
theorem test_decode_push : decode [0b00001101#8, 0x06#8] = .instr (.push 6#8) [] := by decide
theorem test_decode_pop : decode [0b00001110#8, 0x00#8] = .instr (.pop 0#8) [] := by decide
theorem test_decode_call : decode [0b00001111#8, 0x00#8, 0x80#8] = .instr (.call 0x8000#16) [] := by decide
theorem test_decode_ret : decode [0b00010000#8] = .instr .ret [] := by decide
theorem test_decode_mul : decode [0b00010001#8, 0x01#8, 0x01#8] = .instr (.mul 1#8 1#8) [] := by decide
theorem test_decode_halt : decode [0b11111111#8] = .instr .halt [] := by decide
theorem test_decode_rejects :
    decode [0x12#8, 0#8] = .unknownOpcode 0x12#8 ∧ decode [0xFE#8] = .unknownOpcode 0xFE#8 ∧ decode [] = .empty ∧
      decode [0x0C#8, 0x00#8, 0xFF#8] = .truncated .out := by decide
theorem test_encode_out : encode (.out 0xFF01#16 3#8) = [0x0C#8, 0x01#8, 0xFF#8, 0x03#8] := by decide
theorem test_table_word_load : decodeTableWord 32 0x12340101 = some (.load 1#8 0x1234#16) := by decide
theorem test_table_word_short : decodeTableWord 8 0xFFFFFF04 = some (.movi 0#8 0#16) := by decide

/-! Vectors of spec/95_test_vectors.md, section 2. -/

/-- V1. -/
theorem test_add_wraps : (after (placed 0x0100#16 [0x05#8, 0x00#8, 0x01#8] { State.reset with r0 := 0xFFFF#16, r1 := 1#16 })).map
    (fun t => (t.r0, t.fl, t.pc)) = some (0x0000#16, 0x0001#16, 0x0103#16) := by decide
/-- V3. -/
theorem test_add_same_register : (after (placed 0x0100#16 [0x05#8, 0x02#8, 0x02#8] { State.reset with r2 := 0x9000#16, fl := 1#16 })).map
    (fun t => (t.r2, t.fl, t.pc)) = some (0x2000#16, 0x0000#16, 0x0103#16) := by decide
/-- V4. -/
theorem test_sub_borrows : (after (placed 0x0100#16 [0x06#8, 0x00#8, 0x01#8] { State.reset with r1 := 1#16, fl := 1#16 })).map
    (fun t => (t.r0, t.fl, t.pc)) = some (0xFFFF#16, 0x0000#16, 0x0103#16) := by decide
/-- V5. -/
theorem test_sub_same_register : (after (placed 0x0100#16 [0x06#8, 0x03#8, 0x03#8] { State.reset with r3 := 0xABCD#16 })).map
    (fun t => (t.r3, t.fl, t.pc)) = some (0x0000#16, 0x0001#16, 0x0103#16) := by decide
/-- V7. -/
theorem test_mul_low_half : (after (placed 0x0100#16 [0x11#8, 0x00#8, 0x01#8] { State.reset with r0 := 0xFFFF#16, r1 := 0xFFFF#16 })).map
    (fun t => (t.r0, t.fl, t.pc)) = some (0x0001#16, 0x0000#16, 0x0103#16) := by decide
/-- V6. -/
theorem test_mul_zero_low_half : (after (placed 0x0100#16 [0x11#8, 0x00#8, 0x01#8] { State.reset with r0 := 0x0100#16, r1 := 0x0100#16 })).map
    (fun t => (t.r0, t.fl, t.pc)) = some (0x0000#16, 0x0001#16, 0x0103#16) := by decide
/-- V12. -/
theorem test_cmp_keeps_high_flags : (after (placed 0x0100#16 [0x07#8, 0x06#8, 0x00#8] { State.reset with r0 := 0x00F0#16, fl := 0x00F0#16 })).map
    (fun t => (t.r0, t.fl, t.pc)) = some (0x00F0#16, 0x00F1#16, 0x0103#16) := by decide
/-- V13. -/
theorem test_add_into_flags : (after (placed 0x0100#16 [0x05#8, 0x06#8, 0x00#8] { State.reset with r0 := 0xFFFF#16, fl := 1#16 })).map
    (fun t => (t.fl, t.pc)) = some (0x0001#16, 0x0103#16) := by decide
/-- V14. -/
theorem test_mov_from_pc : (after (placed 0x0100#16 [0x03#8, 0x01#8, 0x04#8] State.reset)).map
    (fun t => (t.r1, t.pc)) = some (0x0103#16, 0x0103#16) := by decide
/-- V15. -/
theorem test_mov_to_pc : (after (placed 0x0100#16 [0x03#8, 0x04#8, 0x02#8] { State.reset with r2 := 0x0400#16 })).map
    (fun t => t.pc) = some 0x0400#16 := by decide
/-- V43. -/
theorem test_movi_across_wrap : (after (placed 0xFFFE#16 [0x04#8, 0x00#8, 0xCD#8, 0xAB#8] State.reset)).map
    (fun t => (t.r0, t.pc)) = some (0xABCD#16, 0x0002#16) := by decide
/-- V39. -/
theorem test_movi_invalid_register : (after (placed 0x0100#16 [0x04#8, 0x07#8, 0x34#8, 0x12#8] { State.reset with r0 := 1#16 })).map
    (fun t => (t.registers, t.halted)) = some ([1#16, 0#16, 0#16, 0#16, 0x0104#16, 0#16, 0#16], false) := by decide
/-- V44. -/
theorem test_jmp_across_wrap : (after (placed 0xFFFF#16 [0x08#8, 0x00#8, 0x20#8] State.reset)).map
    (fun t => t.pc) = some 0x2000#16 := by decide
/-- V18. -/
theorem test_jz_taken : (after (placed 0x0100#16 [0x09#8, 0x34#8, 0x12#8] { State.reset with fl := 1#16 })).map
    (fun t => t.pc) = some 0x1234#16 := by decide
/-- V19. -/
theorem test_jz_reads_bit_zero_only : (after (placed 0x0100#16 [0x09#8, 0x34#8, 0x12#8] { State.reset with fl := 0xFFFE#16 })).map
    (fun t => t.pc) = some 0x0103#16 := by decide
/-- V20. -/
theorem test_jnz_taken : (after (placed 0x0100#16 [0x0A#8, 0x34#8, 0x12#8] State.reset)).map
    (fun t => t.pc) = some 0x1234#16 := by decide
/-- V21. -/
theorem test_jnz_not_taken : (after (placed 0x0100#16 [0x0A#8, 0x34#8, 0x12#8] { State.reset with fl := 1#16 })).map
    (fun t => t.pc) = some 0x0103#16 := by decide
/-- V23. -/
theorem test_load_character_port : (after (placed 0x0100#16 [0x01#8, 0x00#8, 0x00#8, 0xFF#8]
    { State.reset with r0 := 0xAAAA#16, mem := [(0xFF00, 0x41#8)] })).map (fun t => (t.r0, t.mem.get 0xFF00#16)) = some (0#16, 0x41#8) := by decide
/-- V24. -/
theorem test_load_decimal_port : (after (placed 0x0100#16 [0x01#8, 0x00#8, 0x01#8, 0xFF#8]
    { State.reset with r0 := 0xAAAA#16, mem := [(0xFF01, 0x07#8)] })).map (fun t => (t.r0, t.pc)) = some (7#16, 0x0104#16) := by decide
/-- V25. -/
theorem test_store_decimal_port : (after (placed 0x0100#16 [0x02#8, 0x01#8, 0x01#8, 0xFF#8] { State.reset with r1 := 0x01FF#16 })).map
    (fun t => (t.mem.get 0xFF01#16, t.out)) = some (0xFF#8, [.dec 0xFF#8]) := by decide
/-- V26. -/
theorem test_out_plain_address : (after (placed 0x0100#16 [0x0C#8, 0x00#8, 0x20#8, 0x01#8] { State.reset with r1 := 0xBEEF#16 })).map
    (fun t => (t.mem.get 0x2000#16, t.out, t.pc)) = some (0xEF#8, [], 0x0104#16) := by decide
/-- E6. -/
theorem test_out_character : (after (placed 0x0004#16 [0x0C#8, 0x00#8, 0xFF#8, 0x00#8] { State.reset with r0 := 0x0041#16 })).map
    (fun t => (t.mem.get 0xFF00#16, t.out)) = some (0x41#8, [.char 0x41#8]) := by decide
/-- V28. -/
theorem test_push_wraps : (after (placed 0x0100#16 [0x0D#8, 0x00#8] { State.reset with r0 := 0x1234#16 })).map
    (fun t => (t.sp, t.mem.get 0xFFFF#16, t.pc)) = some (0xFFFF#16, 0x34#8, 0x0102#16) := by decide
/-- V29. -/
theorem test_push_sp : (after (placed 0x0100#16 [0x0D#8, 0x05#8] { State.reset with sp := 0xFE00#16 })).map
    (fun t => (t.sp, t.mem.get 0xFDFF#16)) = some (0xFDFF#16, 0xFF#8) := by decide
/-- V30. -/
theorem test_pop_sp : (after (placed 0x0100#16 [0x0E#8, 0x05#8] { State.reset with sp := 0x0200#16, mem := [(0x0200, 0x10#8)] })).map
    (fun t => (t.sp, t.pc)) = some (0x0011#16, 0x0102#16) := by decide
/-- V32. -/
theorem test_pop_character_port : (after (placed 0x0100#16 [0x0E#8, 0x01#8]
    { State.reset with sp := 0xFF00#16, r1 := 0x5555#16, mem := [(0xFF00, 0x41#8)] })).map (fun t => (t.r1, t.sp)) = some (0#16, 0xFF01#16) := by decide
/-- V36. -/
theorem test_call_frame_on_ports : (after (placed 0x1234#16 [0x0F#8, 0x00#8, 0x30#8] { State.reset with sp := 0xFF02#16 })).map
    (fun t => (t.mem.get 0xFF01#16, t.mem.get 0xFF00#16, t.sp, t.pc, t.out))
      = some (0x12#8, 0x37#8, 0xFF00#16, 0x3000#16, [.dec 0x12#8, .char 0x37#8]) := by decide
/-- V37. -/
theorem test_call_return_address_wraps : (after (placed 0xFFFD#16 [0x0F#8, 0x00#8, 0x30#8] { State.reset with sp := 0x4000#16 })).map
    (fun t => (t.mem.get 0x3FFF#16, t.mem.get 0x3FFE#16, t.sp, t.pc)) = some (0#8, 0#8, 0x3FFE#16, 0x3000#16) := by decide
/-- V38, the byte at 0x0000 being the high byte. -/
theorem test_ret_wraps : (after (placed 0x0100#16 [0x10#8]
    { State.reset with sp := 0xFFFF#16, mem := [(0, 0x11#8), (0xFFFF, 0x22#8)] })).map (fun t => (t.pc, t.sp)) = some (0x1122#16, 0x0001#16) := by decide
/-- V48. -/
theorem test_halt_at_top : (after (placed 0xFFFF#16 [0xFF#8] State.reset)).map
    (fun t => (t.pc, t.halted, t.out, t.result)) = some (0#16, true, [], .stopped) := by decide
/-- V47. -/
theorem test_in_halts : (after (placed 0x0100#16 [0x0B#8, 0x00#8, 0x00#8, 0xFF#8] State.reset)).map
    (fun t => (t.pc, t.halted, t.out)) = some (0x0101#16, true, [.diag 0x0B#8]) := by decide
/-- V46. -/
theorem test_unknown_opcode_halts : (after (placed 0x0100#16 [0xFE#8, 0x01#8, 0x02#8] State.reset)).map
    (fun t => (t.pc, t.halted, t.out, t.endedInFault)) = some (0x0101#16, true, [.diag 0xFE#8], true) := by decide
/-- V50, its second step. -/
theorem test_nop_at_character_port : (after { State.reset with pc := 0xFF00#16, mem := [(0xFF00, 0xFF#8)] }).map
    (fun t => (t.pc, t.halted)) = some (0xFF01#16, false) := by decide
/-- V41. -/
theorem test_add_invalid_second_register : (after (placed 0x0100#16 [0x05#8, 0x00#8, 0xFF#8] State.reset)).map
    (fun t => (t.pc, t.fl, t.r0)) = some (0x0103#16, 0#16, 0#16) := by decide
/-- R41 on V36. -/
theorem test_call_accesses : stepAccesses (placed 0x1234#16 [0x0F#8, 0x00#8, 0x30#8] { State.reset with sp := 0xFF02#16 })
    = [.read 0x1234#16, .read 0x1235#16, .read 0x1236#16, .write 0xFF01#16 0x12#8, .write 0xFF00#16 0x37#8] := by decide
/-- E7. -/
theorem test_load_program_bounds : loadProgram State.reset [1#8, 2#8] 65535 = none ∧
    ((loadProgram State.reset [1#8] 65535).map fun t => t.mem) = some [(65535, 1#8)] := by decide
/-- R35: three digits, two, zero alone, and zeros inside. -/
theorem test_decimal_digits : decimalDigits 255#8 = [0x32#8, 0x35#8, 0x35#8] ∧ decimalDigits 44#8 = [0x34#8, 0x34#8] ∧
    decimalDigits 0#8 = [0x30#8] ∧ decimalDigits 100#8 = [0x31#8, 0x30#8, 0x30#8] := by decide
/-- R34: the character 'A'. -/
theorem test_render_character : renderEvent 0 (.char 0x41#8) = [0x41#8] := by decide
/-- R74. -/
theorem test_assembly_text : assemblyText (.out 0xFF01#16 3#8) = some "OUT 0xFF01, R3" ∧ assemblyText .inOp = none ∧
    assemblyText (.push 7#8) = none := by decide
/-- The word of E8's CALL placed on the reset state is run by the next step. -/
theorem test_fetch_word_call : (after (State.reset.withFetchWord 24 0x80000F)).map (fun t => (t.pc, t.sp, t.mem.get 0xFFFE#16))
    = some (0x8000#16, 0xFFFE#16, 0x03#8) := by decide
/-- The other values of the two policies. -/
theorem test_other_policies : onInvalidReg .fault 7#8 State.reset = .fault (.invalidRegister 7#8) ∧
    inEffect .refuse State.reset = .refused .inHasNoSemantics := ⟨rfl, rfl⟩

/-! Witnesses: for each statement with hypotheses, values that meet them. -/

/-- A running machine about to execute `MOVI R0, 5`, which has printed an `A`. -/
def demo : State := placed 0x0100#16 [0x04#8, 0x00#8, 0x05#8, 0x00#8]
  { State.reset with mem := [(0xFF00, 0x41#8)], out := [.char 0x41#8] }

theorem witness_decodeEncodeAgree : decode [0x08#8, 0x02#8, 0x01#8, 0xFF#8] = .instr (.jmp 0x0102#16) [0xFF#8] := by decide
theorem witness_rejected_bounds :
    decode [0x12#8] = .unknownOpcode 0x12#8 ∧ decode [0xFE#8] = .unknownOpcode 0xFE#8 ∧
      decode [0x11#8, 0#8, 0#8] = .instr (.mul 0#8 0#8) [] ∧ decode [0xFF#8] = .instr .halt [] := by decide
theorem witness_stepRunsDecoded : demo.halted = false ∧ decode (bytesFrom demo 4 demo.pc) = .instr (.movi 0#8 5#16) [] := by decide
theorem witness_unknownOpcode_low : (State.reset.withFetchWord 8 0x12).halted = false ∧
    ((State.reset.withFetchWord 8 0x12).memRead 0#16).toNat = 0x12 := by decide
theorem witness_unknownOpcode_high : (State.reset.withFetchWord 8 0xFE).halted = false ∧
    ((State.reset.withFetchWord 8 0xFE).memRead 0#16).toNat = 0xFE := by decide
theorem witness_haltedStep : ({ demo with halted := true } : State).halted = true := rfl
theorem witness_fetchSixteen_wrap : (placed 0xFFFF#16 [0x34#8, 0x12#8] State.reset).pc = 0xFFFF#16 ∧
    (fetch16 (placed 0xFFFF#16 [0x34#8, 0x12#8] State.reset)).1 = 0x1234#16 := by decide
theorem witness_step_next : ∃ t, step demo = .next t ∧ t.result = .continues := ⟨_, rfl, rfl⟩
theorem witness_step_stopped : ∃ t, step (State.reset.withFetchWord 8 0xFF) = .next t ∧ t.result = .stopped := ⟨_, rfl, rfl⟩
theorem witness_stepAtCharacterPort : ({ State.reset with pc := 0xFF00#16 } : State).halted = false ∧
    ({ State.reset with pc := 0xFF00#16 } : State).pc = 0xFF00#16 := ⟨rfl, rfl⟩
theorem witness_generalRegisters : ∃ t, step demo = .next t ∧ Reg.r0 ∈ [Reg.r0, .r1, .r2, .r3] ∧ t.reg .r0 ≠ demo.reg .r0 :=
  ⟨_, rfl, by decide, by decide⟩
theorem witness_placedWord : decodeTableWord 24 0x80000F = some (.call 0x8000#16) ∧
    ∀ k : Nat, k < 4 → State.reset.pc + BitVec.ofNat 16 k ≠ 0xFF00#16 := by decide
theorem witness_canonicalMemories : Memory.wf [(5, 7#8), (0xFFFF, 1#8)] = true ∧
    ∀ a : Word, Memory.get [(5, 7#8), (0xFFFF, 1#8)] a = Memory.get [(5, 7#8), (0xFFFF, 1#8)] a := ⟨by decide, fun _ => rfl⟩
theorem witness_memoryWrite_ports : ((demo.memWrite 0xFF00#16 0x42#8).out, (demo.memWrite 0xFF01#16 9#8).out,
    (demo.memWrite 0xFEFF#16 9#8).out, (demo.memWrite 0xFF02#16 9#8).out)
      = ([.char 0x41#8, .char 0x42#8], [.char 0x41#8, .dec 9#8], [.char 0x41#8], [.char 0x41#8]) := by decide
theorem witness_readAfterWrite_ports : ((demo.memWrite 0xFF00#16 0x42#8).memRead 0xFF00#16,
    (demo.memWrite 0xFF01#16 9#8).memRead 0xFF01#16, (demo.memWrite 0xFEFF#16 9#8).memRead 0xFEFF#16,
    (demo.memWrite 0xFEFF#16 9#8).memRead 0x0100#16) = (0#8, 9#8, 9#8, 4#8) := by decide
theorem witness_storeSeen : ∃ t, exec (.store (regByte .r0) 0x0200#16) demo = .next t ∧ (0x0200#16 : Word) ≠ 0xFF00#16 :=
  ⟨_, rfl, by decide⟩
theorem witness_invariant : Invariant demo ∧ ∃ t, step demo = .next t := by
  refine ⟨⟨by unfold MemoryCanonical; decide, ⟨?_, ?_⟩, ?_⟩, ⟨_, rfl⟩⟩
  · intro b h
    have : some 0x41#8 = some b := h
    cases this
    decide
  · intro b h
    cases h
  · intro h
    cases h
theorem witness_runEnds : (∃ t, runUntilStopped 1 (State.reset.withFetchWord 8 0xFF) = some t ∧ t.endedNormally = true) ∧
    Invariant (State.reset.withFetchWord 8 0xFF) := by
  refine ⟨⟨_, rfl, rfl⟩, by unfold MemoryCanonical; decide, ⟨?_, ?_⟩, ?_⟩
  · intro b h
    cases h
  · intro b h
    cases h
  · intro h
    cases h
theorem witness_illFormed_first : (7#8 : Byte) ∈ (Instr.mov 7#8 0#8).regBytes ∧ 6 < (7#8 : Byte).toNat := by decide
theorem witness_illFormed_second : (255#8 : Byte) ∈ (Instr.mov 0#8 255#8).regBytes ∧ 6 < (255#8 : Byte).toNat := by decide
theorem witness_registerFrame : (∃ t, exec (.pop (regByte .r1)) demo = .next t) ∧ mayWrite (.pop (regByte .r1)) .r0 = false ∧
    Instr.pop (regByte .r1) ≠ .halt ∧ Instr.pop (regByte .r1) ≠ .inOp := ⟨⟨_, rfl⟩, by decide, by decide, by decide⟩
theorem witness_flagFrame_bit0 : (∃ t, exec (.add (regByte .r0) (regByte .r1)) demo = .next t) ∧
    ∀ r, destByte (.add (regByte .r0) (regByte .r1)) = some r → regOf r ≠ some .fl := by
  refine ⟨⟨_, rfl⟩, ?_⟩
  intro r h
  cases h
  decide
theorem witness_flagFrame_whole : (∃ t, exec (.load (regByte .r0) 0#16) demo = .next t) ∧
    (∀ r, destByte (.load (regByte .r0) 0#16) = some r → regOf r ≠ some .fl) ∧ setsZero (.load (regByte .r0) 0#16) = false := by
  refine ⟨⟨_, rfl⟩, ?_, rfl⟩
  intro r h
  cases h
  decide
theorem witness_memoryFrame_other : (∃ t, exec (.load (regByte .r1) 0xFF00#16) demo = .next t) ∧
    storesToMemory (.load (regByte .r1) 0xFF00#16) = false := ⟨⟨_, rfl⟩, rfl⟩
theorem witness_memoryFrame_store : ∃ t, exec (.store (regByte .pc) 0xFFFF#16) demo = .next t ∧ (0#16 : Word) ≠ 0xFFFF#16 :=
  ⟨_, rfl, by decide⟩
theorem witness_memoryFrame_out : ∃ t, exec (.out 0xFF00#16 (regByte .fl)) demo = .next t ∧ (0xFF01#16 : Word) ≠ 0xFF00#16 :=
  ⟨_, rfl, by decide⟩
theorem witness_memoryFrame_push : ∃ t, exec (.push (regByte .sp)) demo = .next t ∧ (0#16 : Word) ≠ demo.sp - 1#16 :=
  ⟨_, rfl, by decide⟩
theorem witness_memoryFrame_call : ∃ t, exec (.call 0#16) demo = .next t ∧ (0#16 : Word) ≠ demo.sp - 1#16 ∧
    (0#16 : Word) ≠ demo.sp - 2#16 := ⟨_, rfl, by decide, by decide⟩
theorem witness_listedAccesses : ∃ t, exec (.call 0#16) demo = .next t ∧ (Instr.call 0#16) ≠ .inOp := ⟨_, rfl, by decide⟩
theorem witness_listedReads : (∀ a, Access.read a ∈ dataAccesses .ret demo →
      demo.memRead a = ({ demo with mem := [(0x0200, 9#8)] } : State).memRead a) ∧
    (∃ t, exec .ret demo = .next t) ∧ ∃ u, exec .ret { demo with mem := [(0x0200, 9#8)] } = .next u := by
  refine ⟨?_, ⟨_, rfl⟩, ⟨_, rfl⟩⟩
  intro a h
  have : a = demo.sp ∨ a = demo.sp + 1#16 := by simpa [dataAccesses] using h
  rcases this with rfl | rfl <;> decide
theorem witness_returnAfterCall : ∃ t, exec (.call 0x0200#16) demo = .next t ∧ demo.sp - 1#16 ≠ 0xFF00#16 ∧
    demo.sp - 2#16 ≠ 0xFF00#16 ∧ ∃ u : State, u ≠ t ∧ u.sp = t.sp ∧ u.mem.get (demo.sp - 1#16) = t.mem.get (demo.sp - 1#16) ∧
    u.mem.get (demo.sp - 2#16) = t.mem.get (demo.sp - 2#16) :=
  ⟨_, rfl, by decide, by decide, { demo with r0 := 9#16, sp := 0xFFFE#16, mem := demo.mem.set 0xFFFF#16 0x01#8 }, by decide, by decide, by decide, by decide⟩
theorem witness_popAfterPush : Reg.r0 ≠ .sp ∧ Reg.pc ≠ .sp ∧ demo.sp - 1#16 ≠ 0xFF00#16 ∧
    ∃ t, exec (.push (regByte .r0)) demo = .next t := ⟨by decide, by decide, by decide, ⟨_, rfl⟩⟩
theorem witness_loadProgram : (∃ t, loadProgram State.reset [1#8, 2#8] 65534 = some t) ∧ Memory.wf State.reset.mem = true :=
  ⟨⟨_, rfl⟩, rfl⟩
theorem witness_firstFetch : ∃ c, createMachine.loadProgram (0xFF#8 :: []) = some c := ⟨_, rfl⟩

end Sys2Proof.Tests
end

section
/-! PROOFS. A write through the memory interface (spec/20_memory.md R32): what it stores and emits, and what it leaves
alone. STORE, OUT, PUSH and CALL write memory this way only. -/

namespace Sys2Proof.Machine

/-- The cell law `get_set` gives the stored byte and the cells around it, `portEvents_eq` the event of each port. -/
theorem storesByte_memWrite (s : State) (addr : Word) (b : Byte) : StoresByte addr b s (s.memWrite addr b) := by
  refine ⟨?stored, ?otherCells, ?event⟩
  case stored => exact get_set_same s.mem addr b
  case otherCells => exact fun c hc => get_set_other s.mem b hc
  case event => rw [memWrite_out, portEvents_eq, charPort, decPort]

theorem otherRegsSame_memWrite (s : State) (addr : Word) (b : Byte) (regs : List Reg) :
    OtherRegsSame regs s (s.memWrite addr b) :=
  ⟨fun c _ => memWrite_reg s c addr b, memWrite_halted s addr b⟩

/-- Settles O16: the effect of a write and its register frame, at every address and from every state. -/
theorem memoryWriteStoresAndEmits : Obligations.MemoryWriteStoresAndEmits :=
  fun s addr b => ⟨storesByte_memWrite s addr b, otherRegsSame_memWrite s addr b []⟩

end Sys2Proof.Machine
end

section
/-! PROOFS. Decoding and encoding are inverse to each other (spec/30_encoding.md R59). Encoding then decoding is the
operand law of each instruction. For the converse, the encoder reaches every opcode followed by as many operand bytes as
its format has, so a string that decodes starts with some encoding, and the first direction says which instruction that
encodes. -/

namespace Sys2Proof

/-! The operand bytes of each format with a 16-bit field, low byte first (R51, R55). -/

theorem exists_word_of_length_eq_two {ops : List Byte} (h : ops.length = 2) :
    ∃ a, ops = [lowByte a, highByte a] := by
  obtain ⟨lo, hi, rfl⟩ := List.length_eq_two.mp h
  exact ⟨joinBytes lo hi, by simp⟩

theorem exists_byte_word_of_length_eq_three {ops : List Byte} (h : ops.length = 3) :
    ∃ r a, ops = [r, lowByte a, highByte a] := by
  obtain ⟨r, lo, hi, rfl⟩ := List.length_eq_three.mp h
  exact ⟨r, joinBytes lo hi, by simp⟩

theorem exists_word_byte_of_length_eq_three {ops : List Byte} (h : ops.length = 3) :
    ∃ p r, ops = [lowByte p, highByte p, r] := by
  obtain ⟨lo, hi, r, rfl⟩ := List.length_eq_three.mp h
  exact ⟨joinBytes lo hi, r, by simp⟩

/-- Every string of operand bytes of the right length is some instruction's: no register byte and no field value is
refused. -/
theorem exists_encodeOperands_eq {o : Opcode} {ops : List Byte} (h : ops.length = o.operandBytes) :
    ∃ i : Instr, i.opcode = o ∧ encodeOperands i = ops := by
  cases o with
  | nop => exact ⟨.nop, rfl, (List.length_eq_zero_iff.mp h).symm⟩
  | inOp => exact ⟨.inOp, rfl, (List.length_eq_zero_iff.mp h).symm⟩
  | ret => exact ⟨.ret, rfl, (List.length_eq_zero_iff.mp h).symm⟩
  | halt => exact ⟨.halt, rfl, (List.length_eq_zero_iff.mp h).symm⟩
  | push => obtain ⟨r, rfl⟩ := List.length_eq_one_iff.mp h; exact ⟨.push r, rfl, rfl⟩
  | pop => obtain ⟨r, rfl⟩ := List.length_eq_one_iff.mp h; exact ⟨.pop r, rfl, rfl⟩
  | mov => obtain ⟨r1, r2, rfl⟩ := List.length_eq_two.mp h; exact ⟨.mov r1 r2, rfl, rfl⟩
  | add => obtain ⟨r1, r2, rfl⟩ := List.length_eq_two.mp h; exact ⟨.add r1 r2, rfl, rfl⟩
  | sub => obtain ⟨r1, r2, rfl⟩ := List.length_eq_two.mp h; exact ⟨.sub r1 r2, rfl, rfl⟩
  | cmp => obtain ⟨r1, r2, rfl⟩ := List.length_eq_two.mp h; exact ⟨.cmp r1 r2, rfl, rfl⟩
  | mul => obtain ⟨r1, r2, rfl⟩ := List.length_eq_two.mp h; exact ⟨.mul r1 r2, rfl, rfl⟩
  | jmp => obtain ⟨a, rfl⟩ := exists_word_of_length_eq_two h; exact ⟨.jmp a, rfl, rfl⟩
  | jz => obtain ⟨a, rfl⟩ := exists_word_of_length_eq_two h; exact ⟨.jz a, rfl, rfl⟩
  | jnz => obtain ⟨a, rfl⟩ := exists_word_of_length_eq_two h; exact ⟨.jnz a, rfl, rfl⟩
  | call => obtain ⟨a, rfl⟩ := exists_word_of_length_eq_two h; exact ⟨.call a, rfl, rfl⟩
  | load => obtain ⟨r, a, rfl⟩ := exists_byte_word_of_length_eq_three h; exact ⟨.load r a, rfl, rfl⟩
  | store => obtain ⟨r, a, rfl⟩ := exists_byte_word_of_length_eq_three h; exact ⟨.store r a, rfl, rfl⟩
  | movi => obtain ⟨r, v, rfl⟩ := exists_byte_word_of_length_eq_three h; exact ⟨.movi r v, rfl, rfl⟩
  | out => obtain ⟨p, r, rfl⟩ := exists_word_byte_of_length_eq_three h; exact ⟨.out p r, rfl, rfl⟩

/-- The operand law of every instruction, collected from its constructors. -/
theorem operandBytes_statement : ∀ i : Instr, Laws.OperandBytes.Statement i
  | .nop => Laws.OperandBytes.nop
  | .load r a => Laws.OperandBytes.load r a
  | .store r a => Laws.OperandBytes.store r a
  | .mov r1 r2 => Laws.OperandBytes.mov r1 r2
  | .movi r v => Laws.OperandBytes.movi r v
  | .add r1 r2 => Laws.OperandBytes.add r1 r2
  | .sub r1 r2 => Laws.OperandBytes.sub r1 r2
  | .cmp r1 r2 => Laws.OperandBytes.cmp r1 r2
  | .jmp a => Laws.OperandBytes.jmp a
  | .jz a => Laws.OperandBytes.jz a
  | .jnz a => Laws.OperandBytes.jnz a
  | .inOp => Laws.OperandBytes.inOp
  | .out p r => Laws.OperandBytes.out p r
  | .push r => Laws.OperandBytes.push r
  | .pop r => Laws.OperandBytes.pop r
  | .call a => Laws.OperandBytes.call a
  | .ret => Laws.OperandBytes.ret
  | .mul r1 r2 => Laws.OperandBytes.mul r1 r2
  | .halt => Laws.OperandBytes.halt

theorem length_encodeOperands (i : Instr) : (encodeOperands i).length = i.opcode.operandBytes :=
  (operandBytes_statement i).1

theorem readOperands_encodeOperands (i : Instr) (rest : List Byte) :
    readOperands nextByte i.opcode (encodeOperands i ++ rest) = (i, rest) :=
  (operandBytes_statement i).2 rest

/-- The decoder on a known opcode with all its operand bytes there. -/
theorem decode_opcodeMap_cons {o : Opcode} {bs : List Byte} (h : o.operandBytes ≤ bs.length) :
    decode (config.opcodeMap o :: bs)
      = .instr (readOperands nextByte o bs).1 (readOperands nextByte o bs).2 := by
  simp [decode, Nat.not_lt.mpr h]

/-- The only strings that decode: a known byte 0 and at least its operand bytes. -/
theorem decode_eq_instr_shape {bytes rest : List Byte} {i : Instr} (h : decode bytes = .instr i rest) :
    ∃ o bs, bytes = config.opcodeMap o :: bs ∧ o.operandBytes ≤ bs.length := by
  cases bytes with
  | nil => simp [decode] at h
  | cons b bs =>
    cases ho : Opcode.ofByte b with
    | none => simp [decode, ho] at h
    | some o =>
      refine ⟨o, bs, by rw [opcodeMap_of_ofByte ho], ?_⟩
      by_contra hshort
      simp [decode, ho, Nat.lt_of_not_le hshort] at h

/-- Decoding an encoding gives the instruction back and leaves the bytes after it. -/
theorem decode_encode_append (i : Instr) (rest : List Byte) : decode (encode i ++ rest) = .instr i rest := by
  have hlen : i.opcode.operandBytes ≤ (encodeOperands i ++ rest).length := by
    simp [length_encodeOperands]
  rw [encode, List.cons_append, decode_opcodeMap_cons hlen, readOperands_encodeOperands]

/-- An opcode and at least its operand bytes start with the encoding of some instruction. -/
theorem exists_encode_append_eq {o : Opcode} {bs : List Byte} (h : o.operandBytes ≤ bs.length) :
    ∃ j tail, config.opcodeMap o :: bs = encode j ++ tail := by
  obtain ⟨j, hop, hops⟩ := exists_encodeOperands_eq (List.length_take_of_le h)
  exact ⟨j, bs.drop o.operandBytes, by
    rw [encode, hop, hops, List.cons_append, List.take_append_drop]⟩

/-- A string that decodes to an instruction is its encoding and the rest. -/
theorem eq_encode_append_of_decode {bytes rest : List Byte} {i : Instr} (h : decode bytes = .instr i rest) :
    bytes = encode i ++ rest := by
  obtain ⟨o, bs, rfl, hlen⟩ := decode_eq_instr_shape h
  obtain ⟨j, tail, hj⟩ := exists_encode_append_eq hlen
  have hsame : Decoded.instr j tail = .instr i rest := by
    rw [← decode_encode_append j tail, ← hj, h]
  obtain ⟨rfl, rfl⟩ := Decoded.instr.inj hsame
  exact hj

/-- Settles O1: the round trip in both directions. -/
theorem decodeEncodeAgree : Obligations.DecodeEncodeAgree :=
  ⟨decode_encode_append, fun _ _ _ => eq_encode_append_of_decode⟩

end Sys2Proof
end

section
/-! PROOFS. The fetch of a 16-bit field (spec/40_engine_and_system.md R82): two fetched bytes, joined low byte first. -/

namespace Sys2Proof.Machine

/-- `readWord` over `fetch8` is R82's two calls; `joinBytes` sets the second byte above the first. -/
theorem fetch16_eq (s : State) :
    fetch16 s = ((fetch8 (fetch8 s).2).1 ++ (fetch8 s).1, (fetch8 (fetch8 s).2).2) := rfl

/-- The first fetch moves `pc` only, so the second reads the same memory at the next address modulo 2^16. -/
theorem fetch8_fetch8_fst (s : State) : (fetch8 (fetch8 s).2).1 = s.memRead (s.pc + 1#16) := by simp

theorem fetch8_fst_of_pc_last {s : State} (hpc : s.pc = 0xFFFF#16) :
    (fetch8 s).1 = s.memRead 0xFFFF#16 := by rw [fetch8_fst, hpc]

theorem fetch8_fetch8_fst_of_pc_last {s : State} (hpc : s.pc = 0xFFFF#16) :
    (fetch8 (fetch8 s).2).1 = s.memRead 0x0000#16 := by
  have hwrap : s.pc + 1#16 = 0x0000#16 := by rw [hpc]; decide
  rw [fetch8_fetch8_fst, hwrap]

/-- Settles O9: the two calls of the field, and where they read when `pc` wraps. -/
theorem fetchSixteenIsTwoBytesLowFirst : Obligations.FetchSixteenIsTwoBytesLowFirst :=
  fun s => ⟨fetch16_eq s, fun hpc => ⟨fetch8_fst_of_pc_last hpc, fetch8_fetch8_fst_of_pc_last hpc⟩⟩

end Sys2Proof.Machine
end

section
/-! PROOFS. The three jumps (spec/43_branch.md): each is `jumpIf` under its own condition, and `jumpIf` is the one place
where `pc` moves and the only thing it moves. -/

namespace Sys2Proof.Machine

theorem onlyRegsDiffer_jumpIf (taken : Bool) (addr : Word) (s : State) :
    OnlyRegsDiffer [.pc] s (jumpIf taken addr s) := by
  refine ⟨?otherRegs, jumpIf_halted s addr taken, jumpIf_mem s addr taken, jumpIf_out s addr taken⟩
  case otherRegs => exact fun c hc => jumpIf_reg_other s c addr taken (List.ne_of_not_mem_cons hc)

/-! What each jump answers (R130 to R132): the flag is read from the state before the jump, bit 0 only. -/

theorem exec_jmp (addr : Word) (s : State) : exec (.jmp addr) s = .next (jumpIf true addr s) := rfl

theorem exec_jz (addr : Word) (s : State) : exec (.jz addr) s = .next (jumpIf (s.fl.getLsbD 0) addr s) := rfl

theorem exec_jnz (addr : Word) (s : State) : exec (.jnz addr) s = .next (jumpIf (!s.fl.getLsbD 0) addr s) := rfl

/-- Settles O31: the condition is always true. -/
theorem jmpSetsPc : Obligations.JmpSetsPc := by
  refine fun addr s => ⟨rfl, _, exec_jmp addr s, ?target, onlyRegsDiffer_jumpIf _ addr s⟩
  case target => rw [jumpIf_pc, if_pos rfl]

/-- Settles O32: the condition is bit 0 of `FL`. -/
theorem jzJumpsIffZeroSet : Obligations.JzJumpsIffZeroSet :=
  fun addr s => ⟨rfl, _, exec_jz addr s, jumpIf_pc s addr _, onlyRegsDiffer_jumpIf _ addr s⟩

/-- Settles O33: the condition is the negation of bit 0 of `FL`. -/
theorem jnzJumpsIffZeroClear : Obligations.JnzJumpsIffZeroClear := by
  refine fun addr s => ⟨rfl, _, exec_jnz addr s, ?target, onlyRegsDiffer_jumpIf _ addr s⟩
  case target => simp only [jumpIf_pc, Bool.not_eq_true']

end Sys2Proof.Machine
end

section
/-! PROOFS. CALL and RET (spec/46_call_ret.md): two pushes and then a write of `pc`, two pops and then a write of `pc`.
What one push stores and emits is the law of the memory interface; that a write of a register reaches neither the memory
nor the output lets both stores of CALL be stated up to its last state. -/

namespace Sys2Proof.Machine

/-! The stack pointer after two bytes, and each push as a store (R15, R160). -/

theorem sub_one_sub_one (w : Word) : w - 1#16 - 1#16 = w - 2#16 := by bv_omega

theorem add_one_add_one (w : Word) : w + 1#16 + 1#16 = w + 2#16 := by bv_omega

/-- The decrement moves `sp` only, so the push stores relative to the state before it. -/
theorem storesByte_pushByte (s : State) (b : Byte) : StoresByte (s.sp - 1#16) b s (s.pushByte b) :=
  storesByte_memWrite s.decSp (s.sp - 1#16) b

/-- A second push stores below the first one's cell. -/
theorem storesByte_pushByte_pushByte (s : State) (hi lo : Byte) :
    StoresByte (s.sp - 2#16) lo (s.pushByte hi) ((s.pushByte hi).pushByte lo) := by
  simpa only [pushByte_sp, sub_one_sub_one] using storesByte_pushByte (s.pushByte hi) lo

theorem storesByte_setReg {addr : Word} {b : Byte} {s t : State} (h : StoresByte addr b s t) (a : Reg) (v : Word) :
    StoresByte addr b s (t.setReg a v) := by
  simpa only [StoresByte, setReg_mem, setReg_out] using h

/-! What CALL and RET answer (R160, R161). -/

theorem exec_call (addr : Word) (s : State) :
    exec (.call addr) s = .next (((s.pushByte (highByte s.pc)).pushByte (lowByte s.pc)).setReg .pc addr) := rfl

theorem exec_ret (s : State) :
    exec .ret s = .next (s.incSp.incSp.setReg .pc (joinBytes (s.memRead s.sp) (s.memRead (s.sp + 1#16)))) := rfl

/-- Settles O38: the state between the two pushes is the middle state. -/
theorem callPushesReturnAddressAndJumps : Obligations.CallPushesReturnAddressAndJumps := by
  refine fun addr s => ⟨rfl, _, exec_call addr s, ⟨s.pushByte (highByte s.pc), storesByte_pushByte s _, ?lowByte⟩,
    ?stackPointer, setReg_pc_same _ addr, ?otherRegs, setReg_halted _ .pc addr⟩
  case lowByte => exact storesByte_setReg (storesByte_pushByte_pushByte s _ _) .pc addr
  case stackPointer => exact sub_one_sub_one s.sp
  case otherRegs =>
    intro c hc
    obtain ⟨hsp, hpc⟩ : c ≠ .sp ∧ c ≠ .pc := by simpa using hc
    rw [reg_setReg_other _ _ _ _ hpc, pushByte_reg_other _ _ _ hsp, pushByte_reg_other _ _ _ hsp]

/-- Settles O39: both reads are of the memory before the step, since a pop writes none. -/
theorem retPopsReturnAddress : Obligations.RetPopsReturnAddress := by
  refine fun s => ⟨rfl, _, exec_ret s, ?target, ?stackPointer, ?otherRegs, setReg_halted _ .pc _, setReg_mem _ .pc _,
    setReg_out _ .pc _⟩
  case target => rw [setReg_pc_same, joinBytes_toNat]
  case stackPointer => exact add_one_add_one s.sp
  case otherRegs =>
    intro c hc
    obtain ⟨hpc, hsp⟩ : c ≠ .pc ∧ c ≠ .sp := by simpa using hc
    rw [reg_setReg_other _ _ _ _ hpc, incSp_reg_other _ _ hsp, incSp_reg_other _ _ hsp]

end Sys2Proof.Machine
end

section
/-! PROOFS. The first fetch after a reset (spec/70_reset_and_hazards.md R192). A reset sets `pc` to 0, so the fetch reads
cell 0. A load at 0 writes that cell first and then only cells above it, because an image that fits does not wrap. -/

namespace Sys2Proof.Machine

/-! What a load leaves in the memory (R197). -/

/-- Under either LOAD_TRIGGERS_MMIO the byte itself goes to its cell. -/
@[simp] theorem loadByte_mem (fires : Bool) (a : Word) (b : Byte) (s : State) :
    (loadByte fires a b s).mem = s.mem.set a b := by
  cases fires <;> rfl

/-- A copy that does not pass the top of memory keeps every cell below its start. -/
theorem get_loadBytes_of_lt (fires : Bool) {bs : List Byte} {start : Nat} (s : State) {a : Word}
    (hfit : start + bs.length ≤ 65536) (ha : a.toNat < start) :
    (loadBytes fires bs start s).mem.get a = s.mem.get a := by
  induction bs generalizing start s with
  | nil => rfl
  | cons b bs ih =>
    rw [List.length_cons] at hfit
    have hne : a ≠ BitVec.ofNat 16 start := by
      rintro rfl
      rw [BitVec.toNat_ofNat, Nat.mod_eq_of_lt (by omega)] at ha
      exact Nat.lt_irrefl _ ha
    calc (loadBytes fires (b :: bs) start s).mem.get a
        = (loadByte fires (BitVec.ofNat 16 start) b s).mem.get a := ih _ (by omega) (by omega)
      _ = s.mem.get a := by rw [loadByte_mem, get_set_other s.mem b hne]

/-- The first cell of a copy that does not pass the top of memory holds the buffer's first byte: the rest of the copy is
above it. -/
theorem get_loadBytes_cons_start (fires : Bool) (b : Byte) {bs : List Byte} {start : Nat} (s : State)
    (hfit : start + (b :: bs).length ≤ 65536) :
    (loadBytes fires (b :: bs) start s).mem.get (BitVec.ofNat 16 start) = b := by
  rw [List.length_cons] at hfit
  have hbelow : (BitVec.ofNat 16 start).toNat < start + 1 := by
    rw [BitVec.toNat_ofNat]
    exact Nat.lt_succ_of_le (Nat.mod_le _ _)
  calc (loadBytes fires (b :: bs) start s).mem.get (BitVec.ofNat 16 start)
      = (loadByte fires (BitVec.ofNat 16 start) b s).mem.get (BitVec.ofNat 16 start) :=
        get_loadBytes_of_lt fires _ (by omega) hbelow
    _ = b := by rw [loadByte_mem, get_set_same]

/-- All a load that succeeds can do: the buffer fits, and the answer is the copy. -/
theorem loadProgram_eq_some {s t : State} {buffer : List Byte} {start : Nat} (h : loadProgram s buffer start = some t) :
    start + buffer.length ≤ 65536 ∧ t = loadBytes config.loadTriggersMmio buffer start s := by
  rw [loadProgram, loadWith, Option.ite_none_left_eq_some] at h
  obtain ⟨hfit, hcopy⟩ := h
  exact ⟨Nat.le_of_not_lt hfit, (Option.some.inj hcopy).symm⟩

/-- A load of a created machine is a load of its first reset state, of which it keeps the memory and the output. -/
theorem createdLoadProgram_eq_some {c d : Created} {buffer : List Byte} {start : Nat}
    (h : c.loadProgram buffer start = some d) :
    ∃ t, loadProgram c.firstReset buffer start = some t ∧ d.mem = t.mem ∧ d.out = t.out := by
  obtain ⟨t, hload, rfl⟩ := Option.map_eq_some_iff.mp h
  exact ⟨t, hload, rfl, rfl⟩

/-- The first byte of a loaded image is in cell 0. -/
theorem createdLoadProgram_cons_get_zero {c d : Created} {b : Byte} {image : List Byte}
    (h : c.loadProgram (b :: image) = some d) : d.mem.get 0x0000#16 = b := by
  obtain ⟨t, hload, hmem, -⟩ := createdLoadProgram_eq_some h
  obtain ⟨hfit, rfl⟩ := loadProgram_eq_some hload
  rw [hmem]
  exact get_loadBytes_cons_start _ b _ hfit

/-! The fetch from a state a reset gives. -/

@[simp] theorem firstReset_pc (c : Created) : c.firstReset.pc = 0x0000#16 := rfl

@[simp] theorem firstReset_mem (c : Created) : c.firstReset.mem = c.mem := rfl

theorem fetch8_fst_resetCpu (s : State) : (fetch8 (resetCpu s)).1 = (resetCpu s).memRead 0x0000#16 := by
  rw [fetch8_fst, resetCpu_pc]

/-- Address 0 is no port, so the first fetch reads the cell itself. -/
theorem fetch8_fst_firstReset (c : Created) : (fetch8 c.firstReset).1 = c.mem.get 0x0000#16 := by
  have hplain : (0x0000#16 : Word) ≠ charPort := by decide
  rw [fetch8_fst, firstReset_pc, memRead_plain _ hplain, firstReset_mem]

/-- Settles O51: the fetch at 0 after any reset, and the image's first byte there after create, load and first reset. -/
theorem firstFetchIsAtZero : Obligations.FirstFetchIsAtZero := by
  refine ⟨fun s => ⟨resetCpu_pc s, fetch8_fst_resetCpu s⟩, fun b image c hload => ⟨firstReset_pc c, ?firstByte⟩⟩
  case firstByte => rw [fetch8_fst_firstReset, createdLoadProgram_cons_get_zero hload]

end Sys2Proof.Machine
end

section
/-! PROOFS. The frames the statements use, `OnlyRegsDiffer` and `OtherRegsSame`, as rules: what each update of a state
leaves alone, and that frames compose. -/

namespace Sys2Proof.Machine

theorem onlyRegsDiffer_refl (regs : List Reg) (s : State) : OnlyRegsDiffer regs s s :=
  ⟨fun _ _ => rfl, rfl, rfl, rfl⟩

/-- Two updates one after the other touch the registers of both. -/
theorem OnlyRegsDiffer.trans {p q : List Reg} {s t u : State} (hst : OnlyRegsDiffer p s t) (htu : OnlyRegsDiffer q t u) :
    OnlyRegsDiffer (p ++ q) s u := by
  obtain ⟨hreg, hhalted, hmem, hout⟩ := hst
  obtain ⟨hreg', hhalted', hmem', hout'⟩ := htu
  refine ⟨?regs, hhalted'.trans hhalted, hmem'.trans hmem, hout'.trans hout⟩
  case regs =>
    intro c hc
    obtain ⟨hp, hq⟩ : c ∉ p ∧ c ∉ q := by simpa using hc
    rw [hreg' c hq, hreg c hp]

theorem OnlyRegsDiffer.otherRegsSame {regs : List Reg} {s t : State} (h : OnlyRegsDiffer regs s t) :
    OtherRegsSame regs s t := by
  obtain ⟨hreg, hhalted, -, -⟩ := h
  exact ⟨hreg, hhalted⟩

theorem onlyRegsDiffer_setReg (s : State) (a : Reg) (v : Word) : OnlyRegsDiffer [a] s (s.setReg a v) :=
  ⟨fun c hc => reg_setReg_other s a c v (List.ne_of_not_mem_cons hc), setReg_halted s a v, setReg_mem s a v,
    setReg_out s a v⟩

theorem onlyRegsDiffer_setZ (s : State) (res : Word) : OnlyRegsDiffer [.fl] s (s.setZ res) :=
  ⟨fun c hc => setZ_reg_other s c res (List.ne_of_not_mem_cons hc), rfl, rfl, rfl⟩

theorem onlyRegsDiffer_incSp (s : State) : OnlyRegsDiffer [.sp] s s.incSp :=
  ⟨fun c hc => incSp_reg_other s c (List.ne_of_not_mem_cons hc), rfl, rfl, rfl⟩

theorem otherRegsSame_pushByte (s : State) (b : Byte) : OtherRegsSame [.sp] s (s.pushByte b) :=
  ⟨fun c hc => pushByte_reg_other s c b (List.ne_of_not_mem_cons hc), rfl⟩

end Sys2Proof.Machine
end

section
/-! PROOFS. Opcode bytes and lengths: which bytes are opcodes (spec/30_encoding.md R53, R58), and how long an encoding is
(R51). -/

namespace Sys2Proof

/-- The numbers left free between MUL and HALT. -/
theorem ofByte_eq_none_iff (b : Byte) : Opcode.ofByte b = none ↔ 0x12 ≤ b.toNat ∧ b.toNat ≤ 0xFE := by
  revert b
  decide

theorem decode_cons_eq_unknownOpcode_iff (b : Byte) (bytes : List Byte) :
    decode (b :: bytes) = .unknownOpcode b ↔ Opcode.ofByte b = none := by
  cases ho : Opcode.ofByte b with
  | none => simp [decode, ho]
  | some o =>
    by_cases hshort : bytes.length < o.operandBytes
    · simp [decode, ho, hshort]
    · simp [decode, ho, hshort]

/-- Settles O2: rejection is a failed lookup of the opcode byte. -/
theorem decoderRejectsExactlyUnlistedOpcodes : Obligations.DecoderRejectsExactlyUnlistedOpcodes :=
  fun b bytes => (decode_cons_eq_unknownOpcode_iff b bytes).trans (ofByte_eq_none_iff b)

theorem length_encode (i : Instr) : (encode i).length = i.opcode.length := by
  rw [encode, List.length_cons, length_encodeOperands, length_eq_operandBytes, Nat.add_comm]

/-- Settles O3: the length is a function of the opcode, given by its format. -/
theorem encodedLengthsAreTheFormats : Obligations.EncodedLengthsAreTheFormats := by
  intro i
  rw [length_encode]
  cases i.opcode <;> rfl

/-- Settles O4: the decoder evaluated on each word. -/
theorem sampleWordsDecode : Obligations.SampleWordsDecode := by
  refine ⟨?load, ?movi, ?sub, ?jmp, ?out, ?push, ?call, ?halt, ?unlisted⟩ <;> decide

end Sys2Proof
end

section
/-! PROOFS. Register bytes (spec/10_state.md R11, spec/40_engine_and_system.md R84) and the two texts the host makes: the
assembly line of an instruction and the digits of a decimal event. -/

namespace Sys2Proof.Machine

theorem exists_regByte_iff (r : Byte) : (∃ a, regByte a = r) ↔ r.toNat ≤ 6 := by
  constructor
  · rintro ⟨a, rfl⟩
    cases a <;> decide
  · intro hr
    cases h : regOf r with
    | some a => exact ⟨a, regByte_of_regOf h⟩
    | none => exact absurd ((regOf_eq_none_iff r).mp h) (Nat.not_lt.mpr hr)

/-- Settles O54: the lookup succeeds on 0 to 6 only, and inverts `regByte`. -/
theorem registerBytesNameTheSevenRegisters : Obligations.RegisterBytesNameTheSevenRegisters :=
  ⟨exists_regByte_iff, regOf_regByte, rfl⟩

/-- A register byte has a text exactly when it is valid. -/
theorem regText_eq_none_iff (r : Byte) : regText r = none ↔ validReg r = false := by
  rw [regText, Option.map_eq_none_iff, ← regOf_isSome_iff_valid, Option.isSome_eq_false_iff, Option.isNone_iff_eq_none]

/-- Settles O5: an operand list has a text exactly when each register byte in it has one. -/
theorem assemblyTextExistsForAssemblableInstructions : Obligations.AssemblyTextExistsForAssemblableInstructions := by
  intro i
  cases i with
  | nop | jmp | jz | jnz | inOp | call | ret | halt => simp [assemblyText, Instr.wf, Instr.regBytes]
  | load r | store r | movi r | out _ r | push r | pop r =>
    cases h : regText r <;> simp [assemblyText, Instr.wf, Instr.regBytes, h, ← regText_eq_none_iff]
  | mov r1 r2 | add r1 r2 | sub r1 r2 | cmp r1 r2 | mul r1 r2 =>
    cases h1 : regText r1 <;> cases h2 : regText r2 <;>
      simp [assemblyText, Instr.wf, Instr.regBytes, h1, h2, ← regText_eq_none_iff]

/-! The digits of a decimal event, one lemma for each number of digits (spec/20_memory.md R35). -/

theorem digitCode_toNat {n : Nat} (h : n < 10) : (digitCode n).toNat = 48 + n := by
  rw [digitCode, BitVec.toNat_ofNat]
  omega

theorem digitCode_bounds {n : Nat} (h : n < 10) : 48 ≤ (digitCode n).toNat ∧ (digitCode n).toNat ≤ 57 := by
  rw [digitCode_toNat h]
  omega

theorem digitCode_ne_zeroCode {n : Nat} (h : n < 10) (hpos : n ≠ 0) : digitCode n ≠ 48#8 := by
  intro hcode
  have hval : 48 + n = 48 := by rw [← digitCode_toNat h, hcode]; rfl
  omega

theorem decimalDigits_of_lt_ten {b : Byte} (h : b.toNat < 10) : decimalDigits b = [digitCode b.toNat] := by
  simp [decimalDigits, h]

theorem decimalDigits_of_lt_hundred {b : Byte} (h : ¬b.toNat < 10) (h' : b.toNat < 100) :
    decimalDigits b = [digitCode (b.toNat / 10), digitCode (b.toNat % 10)] := by
  simp [decimalDigits, h, h']

theorem decimalDigits_of_hundred_le {b : Byte} (h : ¬b.toNat < 10) (h' : ¬b.toNat < 100) :
    decimalDigits b = [digitCode (b.toNat / 100), digitCode (b.toNat / 10 % 10), digitCode (b.toNat % 10)] := by
  simp [decimalDigits, h, h']

/-- Settles O53: in each of the three lengths the codes are those of the decimal places, the first of which is not 0. -/
theorem decimalDigitsSpellTheByte : Obligations.DecimalDigitsSpellTheByte := by
  intro b
  have hb := b.isLt
  by_cases hone : b.toNat < 10
  · have hzero : b ≠ 0#8 → b.toNat ≠ 0 := fun hne h0 => hne (BitVec.eq_of_toNat_eq h0)
    rw [decimalDigits_of_lt_ten hone]
    refine ⟨by simp [digitCode_toNat hone], by simp [digitCode_bounds hone], fun hne => ?first, by rintro rfl; rfl⟩
    case first => simpa using digitCode_ne_zeroCode hone (hzero hne)
  · have hne : b ≠ 0#8 := by rintro rfl; exact hone (by decide)
    have hunits : b.toNat % 10 < 10 := by omega
    by_cases htwo : b.toNat < 100
    · have htens : b.toNat / 10 < 10 := by omega
      rw [decimalDigits_of_lt_hundred hone htwo]
      refine ⟨?value, by simp [digitCode_bounds, htens, hunits], fun _ => ?first, fun h => absurd h hne⟩
      case value => simp only [List.foldl, digitCode_toNat htens, digitCode_toNat hunits]; omega
      case first => simpa using digitCode_ne_zeroCode htens (by omega)
    · have hhundreds : b.toNat / 100 < 10 := by omega
      have htens : b.toNat / 10 % 10 < 10 := by omega
      rw [decimalDigits_of_hundred_le hone htwo]
      refine ⟨?value, by simp [digitCode_bounds, hhundreds, htens, hunits], fun _ => ?first, fun h => absurd h hne⟩
      case value =>
        simp only [List.foldl, digitCode_toNat hhundreds, digitCode_toNat htens, digitCode_toNat hunits]; omega
      case first => simpa using digitCode_ne_zeroCode hhundreds (by omega)

end Sys2Proof.Machine
end

section
/-! PROOFS. Reads of the memory interface (spec/20_memory.md R31, R33, R42) and the canonical form of a memory: the list of
cells is determined by what they read. -/

namespace Sys2Proof.Machine

/-- Settles O18: the interception of the character port is the only one of a read. -/
theorem characterPortReadsZeroOthersReadTheirCell : Obligations.CharacterPortReadsZeroOthersReadTheirCell :=
  memRead_eq

/-- A read after a write: the interception first, then the cell law. -/
theorem memRead_memWrite (s : State) (a c : Word) (b : Byte) :
    (s.memWrite a b).memRead c = if c = charPort then 0#8 else if c = a then b else s.memRead c := by
  by_cases hport : c = charPort
  · rw [hport, memRead_charPort, if_pos rfl]
  · rw [memRead_plain _ hport, memRead_plain _ hport, memWrite_mem, get_set, if_neg hport]

/-- Settles O17. -/
theorem readAfterWrite : Obligations.ReadAfterWrite := memRead_memWrite

/-! The canonical form (log 20). Below the first listed address nothing is listed, so two canonical lists with the same
cells have the same first entry. -/

theorem lookup_of_forall_lt {m : Memory} {a : Nat} (h : ∀ c ∈ m, a < c.1) : Memory.lookup m a = Memory.unlisted := by
  induction m with
  | nil => rfl
  | cons c m ih =>
    obtain ⟨hc, hm⟩ := List.forall_mem_cons.mp h
    rw [Memory.lookup, if_neg (Nat.ne_of_gt hc), ih hm]

@[simp] theorem lookup_cons_self (c : Host.Cell) (m : Memory) : Memory.lookup (c :: m) c.1 = c.2 := by
  simp [Memory.lookup]

theorem lookup_cons_of_ne {c : Host.Cell} {a : Nat} (h : c.1 ≠ a) (m : Memory) :
    Memory.lookup (c :: m) a = Memory.lookup m a := by
  simp [Memory.lookup, h]

/-- A canonical list with the cells of another one starts no lower. -/
theorem head_not_lt_of_lookup_eq {c d : Host.Cell} {m n : Memory} (hm : Memory.wf (c :: m) = true)
    (hn : Memory.wf (d :: n) = true) (h : ∀ a < 65536, Memory.lookup (c :: m) a = Memory.lookup (d :: n) a) :
    ¬c.1 < d.1 := by
  intro hlt
  obtain ⟨hc, hlisted, -, -⟩ := (wf_cons c m).mp hm
  obtain ⟨-, -, hrising, -⟩ := (wf_cons d n).mp hn
  have habove : ∀ e ∈ d :: n, c.1 < e.1 := List.forall_mem_cons.mpr ⟨hlt, fun e he => hlt.trans (hrising e he)⟩
  apply hlisted
  rw [← lookup_cons_self c m, h c.1 hc, lookup_of_forall_lt habove]

theorem exists_lookup_ne_unlisted {c : Host.Cell} {m : Memory} (h : Memory.wf (c :: m) = true) :
    ∃ a < 65536, Memory.lookup (c :: m) a ≠ Memory.unlisted := by
  obtain ⟨hc, hlisted, -, -⟩ := (wf_cons c m).mp h
  exact ⟨c.1, hc, by rwa [lookup_cons_self]⟩

/-- Canonical lists with the same cells: the same first entry, and then the same cells behind it. -/
theorem eq_of_lookup_eq {m n : Memory} (hm : Memory.wf m = true) (hn : Memory.wf n = true)
    (h : ∀ a < 65536, Memory.lookup m a = Memory.lookup n a) : m = n := by
  induction m generalizing n with
  | nil =>
    cases n with
    | nil => rfl
    | cons d n =>
      obtain ⟨a, ha, hne⟩ := exists_lookup_ne_unlisted hn
      exact absurd (h a ha).symm hne
  | cons c m ih =>
    cases n with
    | nil =>
      obtain ⟨a, ha, hne⟩ := exists_lookup_ne_unlisted hm
      exact absurd (h a ha) hne
    | cons d n =>
      have haddr : c.1 = d.1 := Nat.le_antisymm
        (Nat.not_lt.mp (head_not_lt_of_lookup_eq hn hm fun a ha => (h a ha).symm))
        (Nat.not_lt.mp (head_not_lt_of_lookup_eq hm hn h))
      obtain ⟨hc, -, hmrising, hmwf⟩ := (wf_cons c m).mp hm
      obtain ⟨-, -, hnrising, hnwf⟩ := (wf_cons d n).mp hn
      have hhead : c = d := by
        refine Prod.ext haddr ?byte
        case byte => rw [← lookup_cons_self c m, h c.1 hc, haddr, lookup_cons_self]
      subst hhead
      refine congrArg (c :: ·) (ih hmwf hnwf fun a ha => ?tails)
      case tails =>
        by_cases hca : c.1 = a
        · subst hca
          rw [lookup_of_forall_lt hmrising, lookup_of_forall_lt hnrising]
        · rw [← lookup_cons_of_ne hca m, ← lookup_cons_of_ne hca n, h a ha]

/-- Settles O19: every list address below 65536 is a word's. -/
theorem canonicalMemoriesWithEqualCellsAreEqual : Obligations.CanonicalMemoriesWithEqualCellsAreEqual := by
  refine fun m n hm hn h => eq_of_lookup_eq hm hn fun a ha => ?cell
  case cell => simpa [Memory.get, Nat.mod_eq_of_lt ha] using h (BitVec.ofNat 16 a)

end Sys2Proof.Machine
end

section
/-! PROOFS. The step (spec/40_engine_and_system.md R80 to R90): what the fetch finds is what the decoder makes of the bytes
at `pc`. -/

namespace Sys2Proof.Machine

/-- Settles O8. -/
theorem haltedStepChangesNothing : Obligations.HaltedStepChangesNothing := by
  intro s hs
  rw [step, if_pos hs]

@[simp] theorem opcode_readOperands {σ : Type} (next : σ → Byte × σ) (o : Opcode) (src : σ) :
    (readOperands next o src).1.opcode = o := by cases o <;> rfl

/-- A fetch of a known opcode finds what the four bytes at `pc` decode to: no format is longer. -/
theorem fetchInstr_of_ofByte {s : State} {o : Opcode} (ho : Opcode.ofByte (s.memRead s.pc) = some o) :
    ∃ i rest, i.opcode = o ∧ decode (bytesFrom s 4 s.pc) = .instr i rest ∧
      fetchInstr s = (.instr i, { s with pc := s.pc + BitVec.ofNat 16 o.length }) := by
  have hfits : o.operandBytes ≤ 3 := by cases o <;> decide
  have hlen : o.operandBytes + (3 - o.operandBytes) = 3 := Nat.add_sub_of_le hfits
  have hbytes : bytesFrom s 4 s.pc = config.opcodeMap o :: bytesFrom s 3 (s.pc + 1#16) := by
    rw [bytesFrom, opcodeMap_of_ofByte ho]
  refine ⟨(readOperands nextByte o (bytesFrom s 3 (s.pc + 1#16))).1,
    (readOperands nextByte o (bytesFrom s 3 (s.pc + 1#16))).2, opcode_readOperands _ _ _, ?decoded, ?fetched⟩
  case decoded => rw [hbytes, decode_opcodeMap_cons (by rwa [bytesFrom_length])]
  case fetched =>
    simp only [fetchInstr, fetch8_fst, ho, fetch8_snd]
    rw [readOperands_fetch8 o _ (3 - o.operandBytes), hlen]
    simp [length_eq_operandBytes, BitVec.add_assoc, BitVec.ofNat_add]

/-- A step by the bytes at `pc`: nothing when halted, the one exception on an unknown opcode, and otherwise `exec` of the
decoded instruction on the state after its fetch. -/
theorem step_decode_cases (s : State) :
    (s.halted = true ∧ step s = .next s) ∨
    (s.halted = false ∧ Opcode.ofByte (s.memRead s.pc) = none ∧
      step s = .next (raiseUnknownOpcode (s.memRead s.pc) { s with pc := s.pc + 1#16 })) ∨
    (s.halted = false ∧ ∃ i rest, Opcode.ofByte (s.memRead s.pc) = some i.opcode ∧
      decode (bytesFrom s 4 s.pc) = .instr i rest ∧
      step s = exec i { s with pc := s.pc + BitVec.ofNat 16 (encode i).length }) := by
  rcases step_cases s with hhalted | ⟨hrun, b, rfl, ho, hstep⟩ | ⟨hrun, o, -, ho, -, -⟩
  · exact .inl hhalted
  · exact .inr (.inl ⟨hrun, ho, hstep⟩)
  · obtain ⟨i, rest, rfl, hdecode, hfetch⟩ := fetchInstr_of_ofByte ho
    exact .inr (.inr ⟨hrun, i, rest, ho, hdecode, by simp [step, hrun, hfetch, length_encode]⟩)

/-- Settles O6: of the three cases of a step only the last decodes on a running machine, and decoding is a function. -/
theorem stepRunsDecodedInstruction : Obligations.StepRunsDecodedInstruction := by
  intro s i rest hrun hdecode
  rcases step_decode_cases s with ⟨hhalted, -⟩ | ⟨-, hnone, -⟩ | ⟨-, j, tail, -, hdecode', hstep⟩
  · exact absurd hhalted (by simp [hrun])
  · simp [bytesFrom, decode, hnone] at hdecode
  · obtain ⟨rfl, -⟩ := Decoded.instr.inj (hdecode'.symm.trans hdecode)
    exact hstep

/-- Settles O7: the opcode byte is one the decoder rejects. -/
theorem unknownOpcodeStepHaltsWithDiagnostic : Obligations.UnknownOpcodeStepHaltsWithDiagnostic := by
  intro s hrun hlow hhigh
  have hnone : Opcode.ofByte (s.memRead s.pc) = none := (ofByte_eq_none_iff _).mpr ⟨hlow, hhigh⟩
  rcases step_decode_cases s with ⟨hhalted, -⟩ | ⟨-, -, hstep⟩ | ⟨-, i, rest, hsome, -⟩
  · exact absurd hhalted (by simp [hrun])
  · exact hstep
  · exact absurd hsome (by simp [hnone])

/-- Settles O13: the byte fetched there is 0, NOP's, whatever the cell holds. -/
theorem stepAtCharacterPortIsNop : Obligations.StepAtCharacterPortIsNop := by
  intro s hrun hpc
  have hbyte : s.memRead s.pc = config.opcodeMap .nop := by rw [hpc]; exact memRead_charPort s
  have hdecode : decode (bytesFrom s 4 s.pc) = .instr .nop (bytesFrom s 3 (s.pc + 1#16)) := by
    rw [bytesFrom, hbyte]
    exact decode_encode_append .nop _
  rw [stepRunsDecodedInstruction s .nop _ hrun hdecode, hpc]
  rfl

end Sys2Proof.Machine
end

section
/-! PROOFS. Bytes placed in memory directly are fetched from there, the character port apart. The bytes must not run over
themselves, so no more than 65536 of them. -/

namespace Sys2Proof.Machine

@[simp] theorem placeBytes_pc (bs : List Byte) (a : Word) (s : State) : (placeBytes bs a s).pc = s.pc := by
  induction bs generalizing a s with
  | nil => rfl
  | cons b bs ih => rw [placeBytes, ih]

@[simp] theorem placeBytes_halted (bs : List Byte) (a : Word) (s : State) :
    (placeBytes bs a s).halted = s.halted := by
  induction bs generalizing a s with
  | nil => rfl
  | cons b bs ih => rw [placeBytes, ih]

/-- Cells the bytes do not cover are kept. -/
theorem get_placeBytes_of_ne {bs : List Byte} {a c : Word} (s : State)
    (h : ∀ k < bs.length, c ≠ a + BitVec.ofNat 16 k) : (placeBytes bs a s).mem.get c = s.mem.get c := by
  induction bs generalizing a s with
  | nil => rfl
  | cons b bs ih =>
    have hhead : c ≠ a := by simpa using h 0 (by simp)
    have htail : ∀ k < bs.length, c ≠ a + 1#16 + BitVec.ofNat 16 k := by
      intro k hk
      have := h (k + 1) (by simpa using hk)
      rwa [Nat.add_comm, BitVec.ofNat_add, ← BitVec.add_assoc] at this
    rw [placeBytes, ih _ htail]
    exact get_set_other s.mem b hhead

theorem bytesFrom_placeBytes {bs : List Byte} {a : Word} (s : State) (hlen : bs.length ≤ 65536)
    (hport : ∀ k < bs.length, a + BitVec.ofNat 16 k ≠ charPort) :
    bytesFrom (placeBytes bs a s) bs.length a = bs := by
  induction bs generalizing a s with
  | nil => rfl
  | cons b bs ih =>
    rw [List.length_cons] at hlen
    have hhead : a ≠ charPort := by simpa using hport 0 (by simp)
    have htail : ∀ k < bs.length, a + 1#16 + BitVec.ofNat 16 k ≠ charPort := by
      intro k hk
      have := hport (k + 1) (by simpa using hk)
      rwa [Nat.add_comm, BitVec.ofNat_add, ← BitVec.add_assoc] at this
    have hkept : ∀ k < bs.length, a ≠ a + 1#16 + BitVec.ofNat 16 k := by
      intro k hk heq
      have := congrArg BitVec.toNat heq
      simp only [BitVec.toNat_add, BitVec.toNat_ofNat] at this
      omega
    rw [List.length_cons, bytesFrom, placeBytes, ih _ (by omega) htail, memRead_plain _ hhead,
      get_placeBytes_of_ne _ hkept]
    exact congrArg (· :: bs) (get_set_same s.mem a b)

theorem decode_tableBytes_of_decodeTableWord {nbits w : Nat} {i : Instr} (h : decodeTableWord nbits w = some i) :
    ∃ rest, decode (tableBytes nbits w) = .instr i rest := by
  unfold decodeTableWord at h
  split at h <;> simp_all

/-- Settles O15: the four placed bytes are the four the step decodes. -/
theorem placedWordRunsNext : Obligations.PlacedWordRunsNext := by
  intro s nbits w i hword hport
  obtain ⟨rest, hdecode⟩ := decode_tableBytes_of_decodeTableWord hword
  have hpc : (s.withFetchWord nbits w).pc = s.pc := placeBytes_pc _ _ _
  have hrun : (s.withFetchWord nbits w).halted = false := placeBytes_halted _ _ _
  have hbytes : bytesFrom (s.withFetchWord nbits w) 4 s.pc = tableBytes nbits w :=
    bytesFrom_placeBytes (bs := tableBytes nbits w) _ (by simp [tableBytes]) hport
  rw [← hpc]
  exact stepRunsDecodedInstruction _ i rest hrun (by rw [hpc, hbytes, hdecode])

end Sys2Proof.Machine
end

section
/-! PROOFS. What each instruction answers on valid register operands, as the update it makes, and the effect of that update
(spec/40_engine_and_system.md to spec/45_stack.md). -/

namespace Sys2Proof.Machine

/-! NOP, HALT and IN (R87 to R89). -/

theorem exec_nop (s : State) : exec .nop s = .next s := rfl

theorem exec_halt (s : State) : exec .halt s = .next { s with halted := true } := rfl

theorem exec_inOp (s : State) : exec .inOp s = .next (raiseUnknownOpcode (config.opcodeMap .inOp) s) := execIn_eq s

/-- Settles O24. -/
theorem nopHasNoEffect : Obligations.NopHasNoEffect := exec_nop

/-- Settles O25. -/
theorem haltHalts : Obligations.HaltHalts := exec_halt

/-- Settles O26: the one exception, on the opcode byte of IN. -/
theorem inRaisesUnknownOpcode : Obligations.InRaisesUnknownOpcode := exec_inOp

/-! MOVI, MOV and LOAD: one register written (R100, R101, R141). -/

theorem exec_movi (a : Reg) (imm : Word) (s : State) :
    exec (.movi (regByte a) imm) s = .next (s.setReg a imm) := withReg_valid a s _

theorem exec_mov (a b : Reg) (s : State) :
    exec (.mov (regByte a) (regByte b)) s = .next (s.setReg a (s.reg b)) := withRegs_valid a b s _

theorem exec_load (a : Reg) (addr : Word) (s : State) :
    exec (.load (regByte a) addr) s = .next (s.setReg a (zext16 (s.memRead addr))) := withReg_valid a s _

/-- Settles O27. -/
theorem moviWritesImmediate : Obligations.MoviWritesImmediate :=
  fun a imm s => ⟨_, exec_movi a imm s, reg_setReg_same s a imm, onlyRegsDiffer_setReg s a imm⟩

/-- Settles O28. -/
theorem movCopiesRegister : Obligations.MovCopiesRegister :=
  fun a b s => ⟨_, exec_mov a b s, reg_setReg_same s a _, onlyRegsDiffer_setReg s a _⟩

/-- Settles O34: the byte is the one the memory interface reads. -/
theorem loadWritesZeroExtendedByte : Obligations.LoadWritesZeroExtendedByte := by
  refine fun a addr s => ⟨_, exec_load a addr s, ?byte, onlyRegsDiffer_setReg s a _⟩
  case byte =>
    rw [reg_setReg_same, zext16_toNat, characterPortReadsZeroOthersReadTheirCell s addr]
    split <;> rfl

/-! ADD, SUB, MUL and CMP (R110 to R116). -/

theorem exec_add (a b : Reg) (s : State) :
    exec (.add (regByte a) (regByte b)) s
      = .next ((s.setReg a (s.reg a + s.reg b)).setZ (s.reg a + s.reg b)) := withRegs_valid a b s _

theorem exec_sub (a b : Reg) (s : State) :
    exec (.sub (regByte a) (regByte b)) s
      = .next ((s.setReg a (s.reg a - s.reg b)).setZ (s.reg a - s.reg b)) := withRegs_valid a b s _

theorem exec_mul (a b : Reg) (s : State) :
    exec (.mul (regByte a) (regByte b)) s
      = .next ((s.setReg a (s.reg a * s.reg b)).setZ (s.reg a * s.reg b)) := withRegs_valid a b s _

theorem exec_cmp (a b : Reg) (s : State) :
    exec (.cmp (regByte a) (regByte b)) s = .next (s.setZ (s.reg a - s.reg b)) := withRegs_valid a b s _

theorem word_eq_zero_iff_mod {res : Word} {n : Nat} (h : res.toNat = n % 65536) : res = 0x0000#16 ↔ n % 65536 = 0 := by
  rw [← BitVec.toNat_inj, h]
  rfl

/-- A result written to its destination and then to the flag: `setZ` comes last, so with `FL` as the destination it sets
bit 0 of the result, and with another one it changes bit 0 of the old `FL` alone. -/
theorem arithmeticEffect_setReg_setZ (a : Reg) {res : Word} {n : Nat} (s : State) (h : res.toNat = n % 65536) :
    ArithmeticEffect a n s ((s.setReg a res).setZ res) := by
  refine ⟨(onlyRegsDiffer_setReg s a res).trans (onlyRegsDiffer_setZ _ res),
    fun ha => ⟨?result, ?zero, ?kept⟩, ?intoFlags⟩
  case result => rw [setZ_reg_other _ _ _ ha, reg_setReg_same, h]
  case zero => rw [setZ_fl, zeroFlag_bit0, decide_eq_decide, word_eq_zero_iff_mod h]
  case kept =>
    intro k hk
    rw [setZ_fl, zeroFlag_high _ _ _ hk, setReg_fl_other _ _ _ ha]
  case intoFlags =>
    rintro rfl
    have hres : res = BitVec.ofNat 16 n := BitVec.eq_of_toNat_eq (by rw [h, BitVec.toNat_ofNat])
    rw [setZ_fl, setReg_fl_same, zeroFlag]
    by_cases hzero : res = 0x0000#16
    · rw [if_pos hzero, if_pos ((word_eq_zero_iff_mod h).mp hzero), hzero]
      rfl
    · rw [if_neg hzero, if_neg (mt (word_eq_zero_iff_mod h).mpr hzero), hres]

/-- Settles O29: one effect, and each word operation modulo 2^16. -/
theorem arithmeticResults : Obligations.ArithmeticResults := by
  intro a b s
  refine ⟨⟨_, exec_add a b s, arithmeticEffect_setReg_setZ a s ?sum⟩,
    ⟨_, exec_sub a b s, arithmeticEffect_setReg_setZ a s ?difference⟩,
    ⟨_, exec_mul a b s, arithmeticEffect_setReg_setZ a s ?product⟩⟩
  case sum => exact BitVec.toNat_add _ _
  case difference =>
    have := (s.reg b).isLt
    rw [BitVec.toNat_sub]
    omega
  case product => exact BitVec.toNat_mul _ _

/-- Settles O30: the difference is 0 exactly when the operands are equal. -/
theorem cmpSetsZeroToEquality : Obligations.CmpSetsZeroToEquality := by
  refine fun a b s => ⟨_, exec_cmp a b s, ?equality, fun k hk => zeroFlag_high _ _ k hk, onlyRegsDiffer_setZ s _⟩
  case equality =>
    rw [setZ_fl, zeroFlag_bit0, decide_eq_decide]
    exact sub_eq_zero

/-! STORE and OUT: one byte written (R142, R143). -/

theorem exec_store (a : Reg) (addr : Word) (s : State) :
    exec (.store (regByte a) addr) s = .next (s.memWrite addr (lowByte (s.reg a))) := withReg_valid a s _

theorem exec_out (a : Reg) (port : Word) (s : State) :
    exec (.out port (regByte a)) s = .next (s.memWrite port (lowByte (s.reg a))) := withReg_valid a s _

/-- Settles O35: both are the write of the memory interface. -/
theorem storeAndOutWriteLowByte : Obligations.StoreAndOutWriteLowByte := fun a addr s =>
  ⟨⟨_, exec_store a addr s, memoryWriteStoresAndEmits s addr _⟩,
    ⟨_, exec_out a addr s, memoryWriteStoresAndEmits s addr _⟩⟩

/-- Settles O20: the fetch is a read after that write, at an address that is no character port. -/
theorem storeIsSeenByTheNextFetch : Obligations.StoreIsSeenByTheNextFetch := by
  intro r addr s t hexec hport
  obtain rfl := Host.Outcome.next.inj ((exec_store r addr s).symm.trans hexec)
  rw [fetch8_fst, memRead_setPc, readAfterWrite, if_neg hport, if_pos rfl]

/-! PUSH and POP (R150 to R153). -/

theorem exec_push (a : Reg) (s : State) :
    exec (.push (regByte a)) s = .next (s.pushByte (lowByte (s.decSp.reg a))) := withReg_valid a s _

theorem exec_pop (a : Reg) (s : State) :
    exec (.pop (regByte a)) s = .next (s.setReg a (zext16 (s.memRead s.sp))).incSp := withReg_valid a s _

/-- The decrement is seen by an operand only if it is `SP` itself. -/
theorem decSp_reg (s : State) (a : Reg) : s.decSp.reg a = if a = .sp then s.sp - 1#16 else s.reg a := by
  by_cases ha : a = .sp
  · rw [if_pos ha, ha, reg_sp, decSp_sp]
  · rw [if_neg ha, decSp_reg_other s a ha]

/-- Settles O36. -/
theorem pushWritesLowByteBelowSp : Obligations.PushWritesLowByteBelowSp := by
  intro a s
  rw [← decSp_reg]
  exact ⟨_, exec_push a s, storesByte_pushByte s _, pushByte_sp s _, otherRegsSame_pushByte s _⟩

/-- Settles O37: the increment comes last, so it acts on the popped value when the destination is `SP`. -/
theorem popWritesByteThenIncrementsSp : Obligations.PopWritesByteThenIncrementsSp := by
  refine fun a s => ⟨_, exec_pop a s, fun ha => ⟨?byte, ?increment⟩, ?popSp,
    (onlyRegsDiffer_setReg s a _).trans (onlyRegsDiffer_incSp _)⟩
  case byte => rw [incSp_reg_other _ _ ha, reg_setReg_same, zext16_toNat]
  case increment => rw [incSp_sp, setReg_sp_other _ _ _ ha]
  case popSp =>
    rintro rfl
    have := (s.memRead s.sp).isLt
    rw [incSp_sp, setReg_sp_same, BitVec.toNat_add, zext16_toNat, BitVec.toNat_ofNat]
    omega

/-- Settles O47: the pop reads the cell the push wrote. -/
theorem popAfterPushGivesLowByte : Obligations.PopAfterPushGivesLowByte := by
  intro a b s t ha hb hport hpush
  obtain rfl := Host.Outcome.next.inj ((exec_push a s).symm.trans hpush)
  refine ⟨_, exec_pop b _, ?byte, ?stackPointer⟩
  case byte =>
    rw [incSp_reg_other _ _ hb, reg_setReg_same, zext16_toNat, pushByte_sp, memRead_plain _ hport, pushByte_mem,
      get_set_same, decSp_reg_other s a ha, lowByte_toNat]
  case stackPointer => rw [incSp_sp, setReg_sp_other _ _ _ hb, pushByte_sp, BitVec.sub_add_cancel]

/-- Settles O46: RET reads the two bytes of CALL's `pc` back, and adds the 2 that CALL took from `SP`. -/
theorem returnAfterCallRestores : Obligations.ReturnAfterCallRestores := by
  intro addr s t u hcall hportHigh hportLow hsp hhigh hlow
  obtain rfl := Host.Outcome.next.inj ((exec_call addr s).symm.trans hcall)
  have husp : u.sp = s.sp - 2#16 := hsp.trans (sub_one_sub_one s.sp)
  have hcell : s.sp - 1#16 = s.sp - 2#16 + 1#16 := by bv_omega
  have hlowByte : u.memRead (s.sp - 2#16) = lowByte s.pc := by
    rw [memRead_plain _ hportLow, hlow, setReg_mem, pushByte_mem, pushByte_sp, sub_one_sub_one, get_set_same]
  have hhighByte : u.memRead (s.sp - 1#16) = highByte s.pc := by
    have hother : s.sp - 1#16 ≠ s.sp - 2#16 := by bv_omega
    rw [memRead_plain _ hportHigh, hhigh, setReg_mem, pushByte_mem, pushByte_sp, sub_one_sub_one,
      get_set_other _ _ hother, pushByte_mem, get_set_same]
  refine ⟨_, exec_ret u, ?returnAddress, ?stackPointer⟩
  case returnAddress => rw [setReg_pc_same, husp, ← hcell, hlowByte, hhighByte, joinBytes_low_high]
  case stackPointer =>
    rw [setReg_sp_other _ _ _ (by decide), incSp_sp, incSp_sp, add_one_add_one, husp, BitVec.sub_add_cancel]

end Sys2Proof.Machine
end

section
/-! PROOFS. Reset and load (spec/70_reset_and_hazards.md R190 to R197). -/

namespace Sys2Proof.Machine

/-- Settles O48. -/
theorem resetZeroesRegistersAndRuns : Obligations.ResetZeroesRegistersAndRuns :=
  fun s => ⟨resetCpu_reg s, resetCpu_halted s, resetCpu_mem s, resetCpu_out s⟩

/-- Settles O49: a cell of a memory that lists nothing reads as unlisted. -/
theorem createdMachineResetsToResetState : Obligations.CreatedMachineResetsToResetState :=
  ⟨rfl, fun c => by cases c <;> rfl, rfl, fun _ => rfl, rfl⟩

@[simp] theorem loadByte_reg (fires : Bool) (a : Word) (b : Byte) (s : State) (c : Reg) :
    (loadByte fires a b s).reg c = s.reg c := by cases fires <;> cases c <;> rfl

@[simp] theorem loadByte_halted (fires : Bool) (a : Word) (b : Byte) (s : State) :
    (loadByte fires a b s).halted = s.halted := by cases fires <;> rfl

theorem otherRegsSame_loadBytes (fires : Bool) (bs : List Byte) (start : Nat) (s : State) :
    OtherRegsSame [] s (loadBytes fires bs start s) := by
  induction bs generalizing start s with
  | nil => exact ⟨fun _ _ => rfl, rfl⟩
  | cons b bs ih =>
    obtain ⟨hreg, hhalted⟩ := ih (start + 1) (loadByte fires (BitVec.ofNat 16 start) b s)
    exact ⟨fun c hc => (hreg c hc).trans (loadByte_reg _ _ _ s c), hhalted.trans (loadByte_halted _ _ _ s)⟩

/-- A copy that bypasses the ports emits nothing. -/
theorem loadBytes_false_out (bs : List Byte) (start : Nat) (s : State) :
    (loadBytes false bs start s).out = s.out := by
  induction bs generalizing start s with
  | nil => rfl
  | cons b bs ih => exact ih _ _

/-- Every cell after a copy that does not pass the top of memory. -/
theorem get_loadBytes (fires : Bool) {bs : List Byte} {start : Nat} (s : State) (a : Word)
    (hfit : start + bs.length ≤ 65536) :
    (loadBytes fires bs start s).mem.get a =
      if start ≤ a.toNat then (bs[a.toNat - start]?).getD (s.mem.get a) else s.mem.get a := by
  induction bs generalizing start s with
  | nil => simp [loadBytes]
  | cons b bs ih =>
    have hfit' : start + 1 + bs.length ≤ 65536 := by rw [List.length_cons] at hfit; omega
    rcases Nat.lt_trichotomy a.toNat start with hbelow | hstart | habove
    · rw [if_neg (Nat.not_le.mpr hbelow), get_loadBytes_of_lt fires s hfit hbelow]
    · have ha : a = BitVec.ofNat 16 start := by rw [← hstart, BitVec.ofNat_toNat, BitVec.setWidth_eq]
      rw [if_pos (Nat.le_of_eq hstart.symm), hstart, Nat.sub_self, ha, get_loadBytes_cons_start fires b s hfit]
      rfl
    · have hnext : start + 1 ≤ a.toNat := habove
      have hne : a ≠ BitVec.ofNat 16 start := by
        rintro rfl
        exact absurd (BitVec.toNat_ofNat start 16 ▸ habove) (Nat.not_lt.mpr (Nat.mod_le _ _))
      have hindex : a.toNat - start = a.toNat - (start + 1) + 1 := by omega
      rw [loadBytes, ih _ hfit', loadByte_mem, get_set_other _ _ hne, if_pos hnext, if_pos (Nat.le_of_lt habove), hindex,
        List.getElem?_cons_succ]

theorem loadProgram_eq_none_iff (s : State) (buffer : List Byte) (start : Nat) :
    loadProgram s buffer start = none ↔ 65536 < start + buffer.length := by
  simp [loadProgram, loadWith]

/-- Settles O50: a load that fits is the copy, under the parameter that bypasses the ports. -/
theorem loadProgramCopiesOrFails : Obligations.LoadProgramCopiesOrFails := by
  refine fun s buffer start => ⟨loadProgram_eq_none_iff s buffer start, fun t hload => ?copy⟩
  case copy =>
    obtain ⟨hfit, rfl⟩ := loadProgram_eq_some hload
    exact ⟨otherRegsSame_loadBytes _ buffer start s, loadBytes_false_out buffer start s, wf_loadBytes _ buffer start s,
      fun a => get_loadBytes _ s a hfit⟩

/-- A load touches memory and output, a reset the rest. -/
theorem loadByte_resetCpu (fires : Bool) (a : Word) (b : Byte) (s : State) :
    loadByte fires a b (resetCpu s) = resetCpu (loadByte fires a b s) := by cases fires <;> rfl

theorem loadBytes_resetCpu (fires : Bool) (bs : List Byte) (start : Nat) (s : State) :
    loadBytes fires bs start (resetCpu s) = resetCpu (loadBytes fires bs start s) := by
  induction bs generalizing start s with
  | nil => rfl
  | cons b bs ih => rw [loadBytes, loadByte_resetCpu, ih, loadBytes]

/-- Settles O52: whether a load fails depends on the buffer and the start alone, and the copy commutes with the reset. -/
theorem loadAndResetCommute : Obligations.LoadAndResetCommute := by
  intro s buffer start
  unfold loadProgram loadWith
  split
  · rfl
  · rw [loadBytes_resetCpu, Option.map_some]

end Sys2Proof.Machine
end

section
/-! PROOFS. The listed accesses (spec/20_memory.md R41) performed in order: what they leave of the memory and the output. -/

namespace Sys2Proof.Machine

theorem mem_ifReg {r : Byte} {f : Reg → List Access} {x : Access} :
    x ∈ ifReg r f ↔ ∃ a, regOf r = some a ∧ x ∈ f a := by
  cases h : regOf r <;> simp [ifReg, h]

theorem ifReg_of_regOf {r : Byte} {a : Reg} (h : regOf r = some a) (f : Reg → List Access) : ifReg r f = f a := by
  simp [ifReg, h]

theorem length_ifReg_le {r : Byte} {f : Reg → List Access} {n : Nat} (h : ∀ a, (f a).length ≤ n) :
    (ifReg r f).length ≤ n := by
  cases hr : regOf r with
  | some a => simpa [ifReg, hr] using h a
  | none => simp [ifReg, hr]

/-- Reads alone change nothing. -/
theorem performAccesses_of_forall_not_write {l : List Access} (s : State) (h : ∀ a b, Access.write a b ∉ l) :
    performAccesses l s = s := by
  induction l with
  | nil => rfl
  | cons x l ih =>
    cases x with
    | read a => exact ih fun c b hc => h c b (List.mem_cons_of_mem _ hc)
    | write a b => exact absurd List.mem_cons_self (h a b)

theorem get_performAccesses_of_not_written {l : List Access} (s : State) {c : Word}
    (h : ∀ b, Access.write c b ∉ l) : (performAccesses l s).mem.get c = s.mem.get c := by
  induction l generalizing s with
  | nil => rfl
  | cons x l ih =>
    have htail : ∀ b, Access.write c b ∉ l := fun b hb => h b (List.mem_cons_of_mem _ hb)
    cases x with
    | read a => exact ih s htail
    | write a b =>
      have hne : c ≠ a := by rintro rfl; exact h b List.mem_cons_self
      exact (ih (s.memWrite a b) htail).trans (get_set_other s.mem b hne)

theorem length_portEvents_le (a : Word) (b : Byte) : (portEvents a b).length ≤ 1 := by
  rw [portEvents_eq]
  split
  · exact Nat.le_refl 1
  · split
    · exact Nat.le_refl 1
    · exact Nat.zero_le 1

/-- Each access appends at most one event. -/
theorem performAccesses_out (l : List Access) (s : State) :
    ∃ new, (performAccesses l s).out = s.out ++ new ∧ new.length ≤ l.length := by
  induction l generalizing s with
  | nil => exact ⟨[], (List.append_nil _).symm, Nat.le_refl 0⟩
  | cons x l ih =>
    cases x with
    | read a =>
      obtain ⟨new, hout, hlen⟩ := ih s
      exact ⟨new, hout, Nat.le_succ_of_le hlen⟩
    | write a b =>
      obtain ⟨new, hout, hlen⟩ := ih (s.memWrite a b)
      refine ⟨portEvents a b ++ new, by rw [performAccesses, hout, memWrite_out, List.append_assoc], ?length⟩
      case length =>
        have := length_portEvents_le a b
        rw [List.length_append, List.length_cons]
        omega

/-- A property of states that every write keeps is kept by every list of accesses. -/
theorem performAccesses_induction {P : State → Prop} (hwrite : ∀ s a b, P s → P (s.memWrite a b)) (l : List Access)
    {s : State} (hs : P s) : P (performAccesses l s) := by
  induction l generalizing s with
  | nil => exact hs
  | cons x l ih =>
    cases x with
    | read a => exact ih hs
    | write a b => exact ih (hwrite s a b hs)

/-! The table itself: which instructions have writes in it, and how long a row is. -/

theorem length_dataAccesses_le (i : Instr) (s : State) : (dataAccesses i s).length ≤ 2 := by
  cases i with
  | load r | store r | out _ r | push r | pop r => exact length_ifReg_le fun _ => by simp
  | call | ret => exact Nat.le_refl 2
  | nop | mov | movi | add | sub | cmp | jmp | jz | jnz | inOp | mul | halt => exact Nat.zero_le 2

theorem not_write_mem_dataAccesses {i : Instr} (h : storesToMemory i = false) (s : State) (a : Word) (b : Byte) :
    Access.write a b ∉ dataAccesses i s := by
  cases i with
  | store | out | push | call => exact absurd h (by simp [storesToMemory])
  | load | pop => simp [dataAccesses, mem_ifReg]
  | ret => simp [dataAccesses]
  | nop | mov | movi | add | sub | cmp | jmp | jz | jnz | inOp | mul | halt => simp [dataAccesses]

theorem performAccesses_dataAccesses_of_not_stores {i : Instr} (h : storesToMemory i = false) (s : State) :
    performAccesses (dataAccesses i s) s = s :=
  performAccesses_of_forall_not_write s (not_write_mem_dataAccesses h s)

/-- An instruction with an invalid register byte has an empty row (R41, last row). -/
theorem dataAccesses_of_invalid {i : Instr} {r : Byte} (hr : r ∈ i.regBytes) (h : regOf r = none) (s : State) :
    dataAccesses i s = [] := by
  cases i with
  | load | store | out | push | pop =>
    obtain rfl := List.mem_singleton.mp hr
    simp [dataAccesses, ifReg, h]
  | call | ret => simp [Instr.regBytes] at hr
  | nop | mov | movi | add | sub | cmp | jmp | jz | jnz | inOp | mul | halt => rfl

end Sys2Proof.Machine
end

section
/-! PROOFS. An instruction either works on registers its bytes all name, or is skipped (spec/40_engine_and_system.md R84,
R85). -/

namespace Sys2Proof.Machine

/-- The three shapes of an instruction: no register byte, one, or two, each tested before the operation. -/
theorem exec_shape (i : Instr) :
    (i.regBytes = [] ∧ ∃ op : State → State, ∀ s, exec i s = .next (op s)) ∨
    (∃ (r : Byte) (op : State → Reg → State), i.regBytes = [r] ∧ ∀ s, exec i s = withReg r s (op s)) ∨
    (∃ (r1 r2 : Byte) (op : State → Reg → Reg → State), i.regBytes = [r1, r2] ∧
      ∀ s, exec i s = withRegs r1 r2 s (op s)) := by
  cases i with
  | nop | jmp | jz | jnz | inOp | call | ret | halt => exact .inl ⟨rfl, _, fun _ => rfl⟩
  | load r | store r | movi r | out _ r | push r | pop r => exact .inr (.inl ⟨r, _, rfl, fun _ => rfl⟩)
  | mov r1 r2 | add r1 r2 | sub r1 r2 | cmp r1 r2 | mul r1 r2 => exact .inr (.inr ⟨r1, r2, _, rfl, fun _ => rfl⟩)

theorem exec_of_invalid {i : Instr} {r : Byte} (hr : r ∈ i.regBytes) (h : regOf r = none) (s : State) :
    exec i s = .next s := by
  rcases exec_shape i with ⟨hbytes, -⟩ | ⟨r1, op, hbytes, hexec⟩ | ⟨r1, r2, op, hbytes, hexec⟩
  · simp [hbytes] at hr
  · obtain rfl : r = r1 := by simpa [hbytes] using hr
    rw [hexec, withReg_invalid h]
  · have hinvalid : regOf r1 = none ∨ regOf r2 = none := by
      rcases (by simpa [hbytes] using hr : r = r1 ∨ r = r2) with rfl | rfl
      · exact .inl h
      · exact .inr h
    rw [hexec, withRegs_invalid hinvalid]

/-- Settles O40. -/
theorem illFormedInstructionIsSkipped : Obligations.IllFormedInstructionIsSkipped :=
  fun _ r s hr hbig => exec_of_invalid hr ((regOf_eq_none_iff r).mpr hbig) s

theorem withReg_answers (r : Byte) (s : State) (op : Reg → State) : ∃ t, withReg r s op = .next t := by
  cases hr : regOf r with
  | some a => exact ⟨op a, by simp [withReg, hr]⟩
  | none => exact ⟨s, withReg_invalid hr s op⟩

theorem withRegs_answers (r1 r2 : Byte) (s : State) (op : Reg → Reg → State) : ∃ t, withRegs r1 r2 s op = .next t := by
  cases h1 : regOf r1 with
  | none => exact ⟨s, withRegs_invalid (.inl h1) s op⟩
  | some a =>
    cases h2 : regOf r2 with
    | none => exact ⟨s, withRegs_invalid (.inr h2) s op⟩
    | some b => exact ⟨op a b, by simp [withRegs, h1, h2]⟩

theorem exec_answers (i : Instr) (s : State) : ∃ t, exec i s = .next t := by
  rcases exec_shape i with ⟨-, op, hexec⟩ | ⟨r, op, -, hexec⟩ | ⟨r1, r2, op, -, hexec⟩
  · exact ⟨op s, hexec s⟩
  · rw [hexec]
    exact withReg_answers r s (op s)
  · rw [hexec]
    exact withRegs_answers r1 r2 s (op s)

/-- Settles O10: each of the three cases of a step answers. -/
theorem stepAlwaysAnswersANextState : Obligations.StepAlwaysAnswersANextState := by
  intro s
  rcases step_decode_cases s with ⟨-, hstep⟩ | ⟨-, -, hstep⟩ | ⟨-, i, -, -, -, hstep⟩
  · exact ⟨_, hstep⟩
  · exact ⟨_, hstep⟩
  · rw [hstep]
    exact exec_answers i _

end Sys2Proof.Machine
end

section
/-! PROOFS. All that an instruction can do, said once against the spec's two tables: the registers of R19 and the accesses
of R41. The frames, the output stream and the invariant follow from it. -/

namespace Sys2Proof.Machine

/-- A state an instruction may come to by the two tables. HALT and IN are the two that touch the run state, and IN emits
its diagnostic without an access. -/
structure ListedEffect (i : Instr) (s t : State) : Prop where
  regs : ∀ c, mayWrite i c = false → t.reg c = s.reg c
  halted : i ≠ .halt → i ≠ .inOp → t.halted = s.halted
  mem : t.mem = (performAccesses (dataAccesses i s) s).mem
  out : i ≠ .inOp → t.out = (performAccesses (dataAccesses i s) s).out

/-- An update of listed registers that leaves memory and output as the accesses do. -/
theorem listedEffect_of_otherRegsSame {i : Instr} {s t : State} {regs : List Reg} (h : OtherRegsSame regs s t)
    (hlisted : ∀ c ∈ regs, mayWrite i c = true) (hmem : t.mem = (performAccesses (dataAccesses i s) s).mem)
    (hout : t.out = (performAccesses (dataAccesses i s) s).out) : ListedEffect i s t := by
  obtain ⟨hreg, hhalted⟩ := h
  refine ⟨fun c hc => hreg c fun hmem => ?listed, fun _ _ => hhalted, hmem, fun _ => hout⟩
  case listed => simp [hlisted c hmem] at hc

/-- An update of listed registers alone, by an instruction that stores nothing. -/
theorem listedEffect_of_onlyRegsDiffer {i : Instr} {s t : State} {regs : List Reg} (h : OnlyRegsDiffer regs s t)
    (hlisted : ∀ c ∈ regs, mayWrite i c = true) (hstores : storesToMemory i = false) : ListedEffect i s t := by
  have hnone := performAccesses_dataAccesses_of_not_stores hstores s
  obtain ⟨-, -, hmem, hout⟩ := id h
  exact listedEffect_of_otherRegsSame h.otherRegsSame hlisted (by rw [hnone, hmem]) (by rw [hnone, hout])

theorem listedEffect_of_invalid {i : Instr} {r : Byte} (hr : r ∈ i.regBytes) (h : regOf r = none) (s : State) :
    ListedEffect i s s := by
  have hnone : performAccesses (dataAccesses i s) s = s := by rw [dataAccesses_of_invalid hr h]; rfl
  exact ⟨fun _ _ => rfl, fun _ _ => rfl, by rw [hnone], fun _ => by rw [hnone]⟩

theorem listedEffect_of_withReg {i : Instr} {r : Byte} {s t : State} {op : Reg → State} (hbytes : i.regBytes = [r])
    (h : withReg r s op = .next t) (hop : ∀ a, regOf r = some a → ListedEffect i s (op a)) : ListedEffect i s t := by
  rcases withReg_next h with ⟨a, ha, rfl⟩ | ⟨hnone, rfl⟩
  · exact hop a ha
  · exact listedEffect_of_invalid (by simp [hbytes]) hnone t

theorem listedEffect_of_withRegs {i : Instr} {r1 r2 : Byte} {s t : State} {op : Reg → Reg → State}
    (hbytes : i.regBytes = [r1, r2]) (h : withRegs r1 r2 s op = .next t)
    (hop : ∀ a b, regOf r1 = some a → ListedEffect i s (op a b)) : ListedEffect i s t := by
  rcases withRegs_next h with ⟨a, b, ha, -, rfl⟩ | ⟨hnone | hnone, rfl⟩
  · exact hop a b ha
  · exact listedEffect_of_invalid (by simp [hbytes]) hnone t
  · exact listedEffect_of_invalid (by simp [hbytes]) hnone t

theorem mayWrite_of_implicitWrites {i : Instr} {c : Reg} (h : c ∈ implicitWrites i) : mayWrite i c = true := by
  simp [mayWrite, h]

theorem mayWrite_of_destByte {i : Instr} {r : Byte} {c : Reg} (h : destByte i = some r) (hr : regOf r = some c) :
    mayWrite i c = true := by
  simp [mayWrite, h, hr]

theorem listedEffect_of_setReg {i : Instr} {r : Byte} {a : Reg} (s : State) (v : Word) (hdest : destByte i = some r)
    (ha : regOf r = some a) (hstores : storesToMemory i = false) : ListedEffect i s (s.setReg a v) :=
  listedEffect_of_onlyRegsDiffer (onlyRegsDiffer_setReg s a v) (by simp [mayWrite_of_destByte hdest ha]) hstores

/-- STORE and OUT: one write, of the low byte. -/
theorem listedEffect_of_storeLow {i : Instr} {r : Byte} {addr : Word} {s t : State} (hbytes : i.regBytes = [r])
    (hrow : dataAccesses i s = ifReg r fun a => [.write addr (lowByte (s.reg a))]) (h : storeLow r addr s = .next t) :
    ListedEffect i s t := by
  refine listedEffect_of_withReg hbytes h fun a ha => ?valid
  case valid =>
    rw [ifReg_of_regOf ha] at hrow
    exact listedEffect_of_otherRegsSame (otherRegsSame_memWrite s addr _ []) (by simp) (by rw [hrow]; rfl)
      (by rw [hrow]; rfl)

/-- ADD, SUB and MUL: the destination, then the flag. -/
theorem listedEffect_of_aluStore {i : Instr} {f : Word → Word → Word} {r1 r2 : Byte} {s t : State}
    (hbytes : i.regBytes = [r1, r2]) (hdest : destByte i = some r1) (hfl : Reg.fl ∈ implicitWrites i)
    (hstores : storesToMemory i = false) (h : aluOp f true r1 r2 s = .next t) : ListedEffect i s t := by
  refine listedEffect_of_withRegs hbytes h fun a b ha => ?valid
  case valid =>
    have hlisted : ∀ c ∈ [a, .fl], mayWrite i c = true := by
      simp [mayWrite_of_destByte hdest ha, mayWrite_of_implicitWrites hfl]
    exact listedEffect_of_onlyRegsDiffer ((onlyRegsDiffer_setReg s a _).trans (onlyRegsDiffer_setZ _ _)) hlisted hstores

theorem listedEffect_of_jumpIf {i : Instr} {taken : Bool} {addr : Word} {s : State} (hpc : Reg.pc ∈ implicitWrites i)
    (hstores : storesToMemory i = false) : ListedEffect i s (jumpIf taken addr s) :=
  listedEffect_of_onlyRegsDiffer (onlyRegsDiffer_jumpIf taken addr s) (by simp [mayWrite_of_implicitWrites hpc]) hstores

/-- Everything an instruction does is listed. -/
theorem listedEffect_of_exec {i : Instr} {s t : State} (h : exec i s = .next t) : ListedEffect i s t := by
  cases i with
  | nop =>
    obtain rfl := Host.Outcome.next.inj h
    exact listedEffect_of_onlyRegsDiffer (onlyRegsDiffer_refl [] _) (by simp) rfl
  | load r addr => exact listedEffect_of_withReg rfl h fun a ha => listedEffect_of_setReg s _ rfl ha rfl
  | movi r imm => exact listedEffect_of_withReg rfl h fun a ha => listedEffect_of_setReg s _ rfl ha rfl
  | mov r1 r2 => exact listedEffect_of_withRegs rfl h fun a b ha => listedEffect_of_setReg s _ rfl ha rfl
  | store r addr | out port r => exact listedEffect_of_storeLow rfl rfl h
  | add r1 r2 | sub r1 r2 | mul r1 r2 => exact listedEffect_of_aluStore rfl rfl (by simp [implicitWrites]) rfl h
  | cmp r1 r2 =>
    refine listedEffect_of_withRegs rfl h fun a b ha => ?_
    exact listedEffect_of_onlyRegsDiffer (onlyRegsDiffer_setZ s _) (by simp [mayWrite, implicitWrites]) rfl
  | jmp addr | jz addr | jnz addr =>
    obtain rfl := Host.Outcome.next.inj h
    exact listedEffect_of_jumpIf (by simp [implicitWrites]) rfl
  | inOp =>
    obtain rfl := Host.Outcome.next.inj h
    exact ⟨fun c _ => raise_reg s c _, fun _ hin => absurd rfl hin, rfl, fun hin => absurd rfl hin⟩
  | push r =>
    refine listedEffect_of_withReg rfl h fun a ha => ?_
    have hrow : dataAccesses (.push r) s = [.write (s.sp - 1#16) (lowByte (s.decSp.reg a))] := ifReg_of_regOf ha _
    exact listedEffect_of_otherRegsSame (otherRegsSame_pushByte s _) (by simp [mayWrite, implicitWrites])
      (by rw [hrow]; rfl) (by rw [hrow]; rfl)
  | pop r =>
    refine listedEffect_of_withReg rfl h fun a ha => ?_
    exact listedEffect_of_onlyRegsDiffer ((onlyRegsDiffer_setReg s a _).trans (onlyRegsDiffer_incSp _))
      (by simp [mayWrite, destByte, implicitWrites, ha]) rfl
  | call addr =>
    obtain ⟨-, u, hu, -, -, -, hsame⟩ := callPushesReturnAddressAndJumps addr s
    obtain rfl := Host.Outcome.next.inj (hu.symm.trans h)
    obtain rfl := Host.Outcome.next.inj ((exec_call addr s).symm.trans h)
    exact listedEffect_of_otherRegsSame hsame (by simp [mayWrite, implicitWrites])
      (by simp [dataAccesses, performAccesses, sub_one_sub_one])
      (by simp [dataAccesses, performAccesses, sub_one_sub_one])
  | ret =>
    obtain ⟨-, u, hu, -, -, honly⟩ := retPopsReturnAddress s
    obtain rfl := Host.Outcome.next.inj (hu.symm.trans h)
    exact listedEffect_of_onlyRegsDiffer honly (by simp [mayWrite, implicitWrites]) rfl
  | halt =>
    obtain rfl := Host.Outcome.next.inj h
    exact ⟨fun c _ => by cases c <;> rfl, fun hhalt _ => absurd rfl hhalt, rfl, fun _ => rfl⟩

/-- Settles O41. -/
theorem registerFrame : Obligations.RegisterFrame := by
  intro i s t h
  have heffect := listedEffect_of_exec h
  exact ⟨heffect.regs, heffect.halted⟩

/-- Settles O44. -/
theorem memoryEffectIsTheListedAccesses : Obligations.MemoryEffectIsTheListedAccesses := by
  intro i s t h
  have heffect := listedEffect_of_exec h
  exact ⟨heffect.mem, heffect.out⟩

/-- A cell with no write of it in the row is kept. -/
theorem get_exec_of_not_written {i : Instr} {s t : State} {c : Word} (h : exec i s = .next t)
    (hrow : ∀ b, Access.write c b ∉ dataAccesses i s) : t.mem.get c = s.mem.get c := by
  rw [(listedEffect_of_exec h).mem, get_performAccesses_of_not_written s hrow]

/-- Settles O43: the rows of the four forms that write name the cells, and the other rows hold no write. -/
theorem memoryFrame : Obligations.MemoryFrame := by
  refine ⟨?others, ?store, ?out, ?push, ?call⟩
  case others =>
    intro i s t h hstores
    rw [(listedEffect_of_exec h).mem, performAccesses_dataAccesses_of_not_stores hstores]
  case store => exact fun r addr c s t h hc => get_exec_of_not_written h (by simp [dataAccesses, mem_ifReg, hc])
  case out => exact fun r port c s t h hc => get_exec_of_not_written h (by simp [dataAccesses, mem_ifReg, hc])
  case push => exact fun r c s t h hc => get_exec_of_not_written h (by simp [dataAccesses, mem_ifReg, hc])
  case call => exact fun addr c s t h hhigh hlow => get_exec_of_not_written h (by simp [dataAccesses, hhigh, hlow])

/-! The flags (10_state.md R16, R17). -/

theorem contains_implicitWrites_fl (i : Instr) : (implicitWrites i).contains .fl = setsZero i := by
  cases i <;> rfl

theorem mayWrite_fl_eq_false {i : Instr} (hdest : ∀ r, destByte i = some r → regOf r ≠ some .fl)
    (hz : setsZero i = false) : mayWrite i .fl = false := by
  rw [mayWrite, contains_implicitWrites_fl, hz, Bool.false_or]
  cases hr : destByte i with
  | none => rfl
  | some r => simpa using hdest r hr

/-- The arithmetic skeleton changes `FL` by `setZ` alone when its destination is another register. -/
theorem aluOp_fl_high {f : Word → Word → Word} {store : Bool} {r1 r2 : Byte} {s t : State}
    (h : aluOp f store r1 r2 s = .next t) (hdest : store = true → regOf r1 ≠ some .fl) {k : Nat} (hk : 0 < k) :
    t.fl.getLsbD k = s.fl.getLsbD k := by
  rcases aluOp_next h with ⟨a, b, ha, -, rfl⟩ | ⟨-, rfl⟩
  · rw [setZ_fl, zeroFlag_high _ _ _ hk]
    cases store with
    | false => rfl
    | true =>
      have hne : a ≠ .fl := by rintro rfl; exact hdest rfl ha
      rw [if_pos rfl, setReg_fl_other _ _ _ hne]
  · rfl

/-- Settles O42: `FL` is outside the register frame of an instruction that does not set the flag, and the others are the
arithmetic skeleton. -/
theorem flagFrame : Obligations.FlagFrame := by
  intro i s t h hdest
  have hwhole : setsZero i = false → t.fl = s.fl :=
    fun hz => (listedEffect_of_exec h).regs .fl (mayWrite_fl_eq_false hdest hz)
  refine ⟨fun k hk => ?high, hwhole⟩
  case high =>
    cases i with
    | add r1 | sub r1 | mul r1 => exact aluOp_fl_high h (fun _ => hdest r1 rfl) hk
    | cmp => exact aluOp_fl_high h (by simp) hk
    | nop | load | store | mov | movi | jmp | jz | jnz | inOp | out | push | pop | call | ret | halt => rw [hwhole rfl]

/-! What follows for a step. -/

/-- The run state after an instruction: HALT and IN set it, and no instruction clears it. -/
theorem halted_exec_iff {i : Instr} {s t : State} (h : exec i s = .next t) :
    t.halted = true ↔ s.halted = true ∨ i = .halt ∨ i = .inOp := by
  by_cases hhalt : i = .halt
  · subst hhalt
    obtain rfl := Host.Outcome.next.inj ((exec_halt s).symm.trans h)
    simp
  · by_cases hin : i = .inOp
    · subst hin
      obtain rfl := Host.Outcome.next.inj ((exec_inOp s).symm.trans h)
      simp
    · simp [(listedEffect_of_exec h).halted hhalt hin, hhalt, hin]

/-- The two stopping instructions by their opcode bytes (log 1). -/
theorem halt_or_inOp_iff (i : Instr) :
    i = .halt ∨ i = .inOp ↔
      config.opcodeMap i.opcode = 0x0B#8 ∨ 0x12 ≤ (config.opcodeMap i.opcode).toNat := by
  cases i <;> simp [Instr.opcode, config, opcodeMap]

theorem result_eq_stopped_iff (s : State) : s.result = .stopped ↔ s.halted = true := by
  cases h : s.halted <;> simp [State.result, h]

/-- All that a step that answers `t` has done. -/
theorem step_next {s t : State} (h : step s = .next t) :
    (s.halted = true ∧ t = s) ∨
    (s.halted = false ∧ Opcode.ofByte (s.memRead s.pc) = none ∧
      t = raiseUnknownOpcode (s.memRead s.pc) { s with pc := s.pc + 1#16 }) ∨
    (s.halted = false ∧ ∃ i rest, Opcode.ofByte (s.memRead s.pc) = some i.opcode ∧
      decode (bytesFrom s 4 s.pc) = .instr i rest ∧
      exec i { s with pc := s.pc + BitVec.ofNat 16 (encode i).length } = .next t) := by
  rcases step_decode_cases s with
    ⟨hhalted, hstep⟩ | ⟨hrun, hnone, hstep⟩ | ⟨hrun, i, rest, hsome, hdecode, hstep⟩
  · exact .inl ⟨hhalted, Host.Outcome.next.inj (h.symm.trans hstep)⟩
  · exact .inr (.inl ⟨hrun, hnone, Host.Outcome.next.inj (h.symm.trans hstep)⟩)
  · exact .inr (.inr ⟨hrun, i, rest, hsome, hdecode, hstep.symm.trans h⟩)

/-- Settles O11: case by case of a step, with the opcode byte of the executed instruction. -/
theorem stoppedExactlyByHaltOrUnknownOpcode : Obligations.StoppedExactlyByHaltOrUnknownOpcode := by
  intro s t h
  rw [result_eq_stopped_iff]
  rcases step_next h with ⟨hhalted, rfl⟩ | ⟨-, hnone, rfl⟩ | ⟨-, i, rest, hsome, -, hexec⟩
  · simp [hhalted]
  · obtain ⟨hlow, -⟩ := (ofByte_eq_none_iff _).mp hnone
    simp [hlow]
  · rw [halted_exec_iff hexec, halt_or_inOp_iff, opcodeMap_of_ofByte hsome]

theorem exec_out_append {i : Instr} {s t : State} (h : exec i s = .next t) :
    ∃ new, t.out = s.out ++ new ∧ new.length ≤ 2 := by
  by_cases hin : i = .inOp
  · subst hin
    obtain rfl := Host.Outcome.next.inj ((exec_inOp s).symm.trans h)
    exact ⟨[.diag (config.opcodeMap .inOp)], raise_out _ _, by simp⟩
  · obtain ⟨new, hout, hlen⟩ := performAccesses_out (dataAccesses i s) s
    exact ⟨new, ((listedEffect_of_exec h).out hin).trans hout, hlen.trans (length_dataAccesses_le i s)⟩

/-- Settles O12: at most two accesses, each with at most one event, or one diagnostic. -/
theorem outputStreamIsAppendOnly : Obligations.OutputStreamIsAppendOnly := by
  intro s t h
  rcases step_next h with ⟨-, rfl⟩ | ⟨-, -, rfl⟩ | ⟨-, i, -, -, -, hexec⟩
  · exact ⟨[], (List.append_nil _).symm, by simp⟩
  · exact ⟨[.diag (s.memRead s.pc)], raise_out _ _, by simp⟩
  · obtain ⟨new, hout, hlen⟩ := exec_out_append hexec
    exact ⟨new, hout, hlen⟩

theorem not_mem_implicitWrites_of_general {c : Reg} (hc : c ∈ [Reg.r0, .r1, .r2, .r3]) (i : Instr) :
    c ∉ implicitWrites i := by
  have hspecial : ∀ d ∈ implicitWrites i, d ∈ [Reg.pc, .sp, .fl] := by cases i <;> simp [implicitWrites]
  intro hmem
  have := hspecial c hmem
  revert hc this
  cases c <;> decide

/-- A general register that an instruction may write is its destination. -/
theorem destByte_of_mayWrite_general {i : Instr} {c : Reg} (hc : c ∈ [Reg.r0, .r1, .r2, .r3])
    (h : mayWrite i c = true) : ∃ r, destByte i = some r ∧ regOf r = some c := by
  have hnot : (implicitWrites i).contains c = false := by
    simpa using not_mem_implicitWrites_of_general hc i
  rw [mayWrite, hnot, Bool.false_or] at h
  cases hr : destByte i with
  | none => simp [hr] at h
  | some r => exact ⟨r, rfl, by simpa [hr] using h⟩

theorem reg_setPc_of_general {c : Reg} (hc : c ∈ [Reg.r0, .r1, .r2, .r3]) (s : State) (v : Word) :
    ({ s with pc := v } : State).reg c = s.reg c := by
  have hne : c ≠ .pc := by rintro rfl; revert hc; decide
  exact reg_setReg_other s .pc c v hne

/-- Settles O14: the fetch moves `pc` alone, the exception writes no register, and the rest is the register frame. -/
theorem generalRegistersChangeOnlyAsDestinations : Obligations.GeneralRegistersChangeOnlyAsDestinations := by
  intro s t c h hc hchanged
  rcases step_next h with ⟨-, rfl⟩ | ⟨-, -, rfl⟩ | ⟨-, i, rest, -, hdecode, hexec⟩
  · exact absurd rfl hchanged
  · exact absurd (by rw [raise_reg, reg_setPc_of_general hc]) hchanged
  · have hmay : mayWrite i c = true := by
      by_contra hnot
      refine hchanged ?_
      rw [(listedEffect_of_exec hexec).regs c (by simpa using hnot), reg_setPc_of_general hc]
    obtain ⟨r, hdest, hr⟩ := destByte_of_mayWrite_general hc hmay
    exact ⟨i, rest, r, hdecode, hdest, hr⟩

end Sys2Proof.Machine
end

section
/-! PROOFS. The invariant of `Safety.lean`: a write keeps it, the exception keeps it, so every instruction and every step
does, and every run (spec/20_memory.md R34, R35; spec/60_exceptions.md R171, R177). -/

namespace Sys2Proof.Machine

/-! The last event of each port, and the diagnostics, as the stream grows. -/

@[simp] theorem lastChar_append_char (out : List Event) (b : Byte) : lastChar (out ++ [.char b]) = some b := by
  simp [lastChar]

@[simp] theorem lastChar_append_dec (out : List Event) (b : Byte) : lastChar (out ++ [.dec b]) = lastChar out := by
  simp [lastChar]

@[simp] theorem lastChar_append_diag (out : List Event) (b : Byte) : lastChar (out ++ [.diag b]) = lastChar out := by
  simp [lastChar]

@[simp] theorem lastDec_append_char (out : List Event) (b : Byte) : lastDec (out ++ [.char b]) = lastDec out := by
  simp [lastDec]

@[simp] theorem lastDec_append_dec (out : List Event) (b : Byte) : lastDec (out ++ [.dec b]) = some b := by
  simp [lastDec]

@[simp] theorem lastDec_append_diag (out : List Event) (b : Byte) : lastDec (out ++ [.diag b]) = lastDec out := by
  simp [lastDec]

/-- No write emits a diagnostic. -/
theorem hasDiag_memWrite (s : State) (a : Word) (b : Byte) : (s.memWrite a b).hasDiag = s.hasDiag := by
  rw [State.hasDiag, memWrite_out, portEvents_eq, List.any_append]
  split
  · simp [Event.isDiag, State.hasDiag]
  · split <;> simp [Event.isDiag, State.hasDiag]

theorem charPort_ne_decPort : charPort ≠ decPort := by decide

/-- A write at a port stores the byte it emits there; at another address it reaches neither a port's cell nor the
stream. -/
theorem portsMirrorEvents_memWrite {s : State} (a : Word) (b : Byte) (h : PortsMirrorEvents s) :
    PortsMirrorEvents (s.memWrite a b) := by
  obtain ⟨hchar, hdec⟩ := h
  unfold PortsMirrorEvents
  rw [memWrite_out, memWrite_mem, portEvents_eq]
  by_cases hc : a = charPort
  · subst hc
    rw [if_pos rfl, lastChar_append_char, lastDec_append_char, get_set_same, get_set_other _ _ charPort_ne_decPort.symm]
    exact ⟨fun c hc => Option.some.inj hc, hdec⟩
  · by_cases hd : a = decPort
    · subst hd
      rw [if_neg hc, if_pos rfl, lastChar_append_dec, lastDec_append_dec, get_set_same,
        get_set_other _ _ charPort_ne_decPort]
      exact ⟨hchar, fun c hc => Option.some.inj hc⟩
    · rw [if_neg hc, if_neg hd, List.append_nil, get_set_other _ _ (Ne.symm hc), get_set_other _ _ (Ne.symm hd)]
      exact ⟨hchar, hdec⟩

theorem invariant_memWrite (s : State) (a : Word) (b : Byte) (h : Invariant s) : Invariant (s.memWrite a b) := by
  obtain ⟨hcanonical, hports, hdiag⟩ := h
  refine ⟨wf_memWrite s a b hcanonical, portsMirrorEvents_memWrite a b hports, fun hany => ?halted⟩
  case halted => exact hdiag (by rwa [hasDiag_memWrite] at hany)

/-- The exception's event is no port's, and it halts. -/
theorem invariant_raiseUnknownOpcode {s : State} (b : Byte) (h : Invariant s) : Invariant (raiseUnknownOpcode b s) := by
  obtain ⟨hcanonical, ⟨hchar, hdec⟩, -⟩ := h
  refine ⟨hcanonical, ⟨?lastChar, ?lastDec⟩, fun _ => raise_halted s b⟩
  case lastChar => rwa [raise_out, lastChar_append_diag]
  case lastDec => rwa [raise_out, lastDec_append_diag]

/-- The invariant speaks of memory, output and run state alone, and a halted machine meets its last clause. -/
theorem invariant_of_same {s t : State} (h : Invariant s) (hmem : t.mem = s.mem) (hout : t.out = s.out)
    (hhalted : s.halted = true → t.halted = true) : Invariant t := by
  obtain ⟨hcanonical, hports, hdiag⟩ := h
  refine ⟨?canonical, ?ports, fun hany => hhalted (hdiag ?diag)⟩
  case canonical => rwa [MemoryCanonical, hmem]
  case ports => rwa [PortsMirrorEvents, hmem, hout]
  case diag => rwa [State.hasDiag, hout] at hany

@[simp] theorem performAccesses_halted (l : List Access) (s : State) :
    (performAccesses l s).halted = s.halted :=
  performAccesses_induction (P := fun t => t.halted = s.halted) (fun t a b ht => (memWrite_halted t a b).trans ht) l rfl

/-- An instruction other than IN does its listed accesses, each of which keeps the invariant; IN is the exception. -/
theorem invariant_exec {i : Instr} {s t : State} (hs : Invariant s) (h : exec i s = .next t) : Invariant t := by
  by_cases hin : i = .inOp
  · subst hin
    obtain rfl := Host.Outcome.next.inj ((exec_inOp s).symm.trans h)
    exact invariant_raiseUnknownOpcode _ hs
  · have heffect := listedEffect_of_exec h
    have haccesses : Invariant (performAccesses (dataAccesses i s) s) := performAccesses_induction invariant_memWrite _ hs
    refine invariant_of_same haccesses heffect.mem (heffect.out hin) fun hhalted => ?halted
    case halted => exact (halted_exec_iff h).mpr (.inl (by rwa [performAccesses_halted] at hhalted))

theorem invariant_setPc {s : State} (v : Word) (h : Invariant s) : Invariant { s with pc := v } :=
  invariant_of_same h rfl rfl id

/-- Settles O22: the fetch moves `pc` alone, and what follows is the exception or an instruction. -/
theorem stepKeepsInvariant : Obligations.StepKeepsInvariant := by
  intro s t hs h
  rcases step_next h with ⟨-, rfl⟩ | ⟨-, -, rfl⟩ | ⟨-, i, -, -, -, hexec⟩
  · exact hs
  · exact invariant_raiseUnknownOpcode _ (invariant_setPc _ hs)
  · exact invariant_exec (invariant_setPc _ hs) hexec

/-- Settles O21: nothing is listed and nothing has been emitted. -/
theorem resetHasInvariant : Obligations.ResetHasInvariant :=
  ⟨wf_reset, ⟨by simp [State.reset, lastChar], by simp [State.reset, lastDec]⟩,
    by simp [State.reset, DiagMeansHalted, State.hasDiag]⟩

/-! Runs. -/

/-- All that one more step of the driving loop can do: it ends there, or goes on from a next state. -/
theorem runUntilStopped_succ {n : Nat} {s t : State} (h : runUntilStopped (n + 1) s = some t) :
    ∃ u, step s = .next u ∧ ((u.halted = true ∧ u = t) ∨ runUntilStopped n u = some t) := by
  obtain ⟨u, hstep⟩ := stepAlwaysAnswersANextState s
  refine ⟨u, hstep, ?_⟩
  cases hu : u.halted with
  | true => exact .inl ⟨rfl, by simpa [runUntilStopped, hstep, State.result, hu] using h⟩
  | false => exact .inr (by simpa [runUntilStopped, hstep, State.result, hu] using h)

/-- What every step keeps, a run that ends keeps. -/
theorem runUntilStopped_induction {P : State → Prop} (hkeeps : ∀ s t, P s → step s = .next t → P t) {n : Nat}
    {s t : State} (hs : P s) (h : runUntilStopped n s = some t) : P t := by
  induction n generalizing s with
  | zero => simp [runUntilStopped] at h
  | succ n ih =>
    obtain ⟨u, hstep, ⟨-, rfl⟩ | hrest⟩ := runUntilStopped_succ h
    · exact hkeeps s u hs hstep
    · exact ih (hkeeps s u hs hstep) hrest

theorem halted_of_runUntilStopped {n : Nat} {s t : State} (h : runUntilStopped n s = some t) : t.halted = true := by
  induction n generalizing s with
  | zero => simp [runUntilStopped] at h
  | succ n ih =>
    obtain ⟨u, -, ⟨hhalted, rfl⟩ | hrest⟩ := runUntilStopped_succ h
    · exact hhalted
    · exact ih hrest

/-- Settles O23: a halted end is a fixed point of the step, and a diagnostic in it tells its two kinds apart. -/
theorem runsEndHaltedWithInvariant : Obligations.RunsEndHaltedWithInvariant := by
  intro n s t h
  have hhalted := halted_of_runUntilStopped h
  refine ⟨haltedStepChangesNothing t hhalted, ?oneEnd, hhalted,
    fun hs => runUntilStopped_induction stepKeepsInvariant hs h⟩
  case oneEnd => simp [State.endedNormally, State.endedInFault, hhalted]

end Sys2Proof.Machine
end

section
/-! PROOFS. What an instruction learns from memory (spec/20_memory.md R41, R42): two states that differ in memory alone stay
so through every update, as long as the bytes read are the same. -/

namespace Sys2Proof.Machine

/-- The second state is the first one with another memory. -/
def DifferInMemoryOnly (s t : State) : Prop := ∃ m, t = { s with mem := m }

namespace DifferInMemoryOnly

variable {s t : State}

theorem reg_eq (h : DifferInMemoryOnly s t) (c : Reg) : t.reg c = s.reg c := by
  obtain ⟨m, rfl⟩ := h
  cases c <;> rfl

theorem halted_eq (h : DifferInMemoryOnly s t) : t.halted = s.halted := by
  obtain ⟨m, rfl⟩ := h
  rfl

theorem out_eq (h : DifferInMemoryOnly s t) : t.out = s.out := by
  obtain ⟨m, rfl⟩ := h
  rfl

theorem setReg (h : DifferInMemoryOnly s t) (a : Reg) (v : Word) : DifferInMemoryOnly (s.setReg a v) (t.setReg a v) := by
  obtain ⟨m, rfl⟩ := h
  cases a <;> exact ⟨m, rfl⟩

theorem setZ (h : DifferInMemoryOnly s t) (res : Word) : DifferInMemoryOnly (s.setZ res) (t.setZ res) := by
  obtain ⟨m, rfl⟩ := h
  exact ⟨m, rfl⟩

theorem incSp (h : DifferInMemoryOnly s t) : DifferInMemoryOnly s.incSp t.incSp := by
  obtain ⟨m, rfl⟩ := h
  exact ⟨m, rfl⟩

theorem decSp (h : DifferInMemoryOnly s t) : DifferInMemoryOnly s.decSp t.decSp := by
  obtain ⟨m, rfl⟩ := h
  exact ⟨m, rfl⟩

theorem memWrite (h : DifferInMemoryOnly s t) (a : Word) (b : Byte) :
    DifferInMemoryOnly (s.memWrite a b) (t.memWrite a b) := by
  obtain ⟨m, rfl⟩ := h
  exact ⟨m.set a b, rfl⟩

theorem pushByte (h : DifferInMemoryOnly s t) (b : Byte) : DifferInMemoryOnly (s.pushByte b) (t.pushByte b) := by
  obtain ⟨m, rfl⟩ := h
  exact ⟨m.set (s.sp - 1#16) b, rfl⟩

theorem jumpIf (h : DifferInMemoryOnly s t) (taken : Bool) (addr : Word) :
    DifferInMemoryOnly (Machine.jumpIf taken addr s) (Machine.jumpIf taken addr t) := by
  obtain ⟨m, rfl⟩ := h
  cases taken <;> exact ⟨m, rfl⟩

theorem raiseUnknownOpcode (h : DifferInMemoryOnly s t) (b : Byte) :
    DifferInMemoryOnly (Machine.raiseUnknownOpcode b s) (Machine.raiseUnknownOpcode b t) := by
  obtain ⟨m, rfl⟩ := h
  exact ⟨m, rfl⟩

theorem of_next {t' u' : State} (hs : (.next s : Result) = .next t') (ht : (.next t : Result) = .next u')
    (h : DifferInMemoryOnly s t) : DifferInMemoryOnly t' u' := by
  obtain rfl := Host.Outcome.next.inj hs
  obtain rfl := Host.Outcome.next.inj ht
  exact h

/-- An invalid register byte skips in both states. -/
theorem of_withReg {r : Byte} {t' u' : State} {op op' : Reg → State} (h : DifferInMemoryOnly s t)
    (hs : withReg r s op = .next t') (ht : withReg r t op' = .next u')
    (hop : ∀ a, regOf r = some a → DifferInMemoryOnly (op a) (op' a)) : DifferInMemoryOnly t' u' := by
  cases hr : regOf r with
  | none =>
    rw [withReg_invalid hr] at hs ht
    exact of_next hs ht h
  | some a =>
    obtain rfl := regByte_of_regOf hr
    rw [withReg_valid] at hs ht
    exact of_next hs ht (hop a hr)

theorem of_withRegs {r1 r2 : Byte} {t' u' : State} {op op' : Reg → Reg → State} (h : DifferInMemoryOnly s t)
    (hs : withRegs r1 r2 s op = .next t') (ht : withRegs r1 r2 t op' = .next u')
    (hop : ∀ a b, DifferInMemoryOnly (op a b) (op' a b)) : DifferInMemoryOnly t' u' := by
  rcases withRegs_next hs with ⟨a, b, ha, hb, rfl⟩ | ⟨hinvalid, rfl⟩
  · obtain rfl := regByte_of_regOf ha
    obtain rfl := regByte_of_regOf hb
    rw [withRegs_valid] at ht
    obtain rfl := Host.Outcome.next.inj ht
    exact hop a b
  · rw [withRegs_invalid hinvalid] at ht
    obtain rfl := Host.Outcome.next.inj ht
    exact h

theorem of_aluOp {f : Word → Word → Word} {store : Bool} {r1 r2 : Byte} {t' u' : State} (h : DifferInMemoryOnly s t)
    (hs : aluOp f store r1 r2 s = .next t') (ht : aluOp f store r1 r2 t = .next u') : DifferInMemoryOnly t' u' := by
  refine of_withRegs h hs ht fun a b => ?valid
  case valid =>
    simp only [h.reg_eq]
    cases store with
    | false => exact h.setZ _
    | true => exact (h.setReg a _).setZ _

theorem of_storeLow {r : Byte} {addr : Word} {t' u' : State} (h : DifferInMemoryOnly s t)
    (hs : storeLow r addr s = .next t') (ht : storeLow r addr t = .next u') : DifferInMemoryOnly t' u' := by
  refine of_withReg h hs ht fun a _ => ?valid
  case valid =>
    rw [h.reg_eq]
    exact h.memWrite addr _

end DifferInMemoryOnly

/-- Every instruction keeps two such states apart in memory alone, if its listed reads answer the same. -/
theorem differInMemoryOnly_exec {i : Instr} {s s' t u : State} (h : DifferInMemoryOnly s s')
    (hreads : ∀ a, Access.read a ∈ dataAccesses i s → s.memRead a = s'.memRead a) (hs : exec i s = .next t)
    (hs' : exec i s' = .next u) : DifferInMemoryOnly t u := by
  have hzero : s'.zero = s.zero := congrArg (BitVec.getLsbD · 0) (h.reg_eq .fl)
  have hsp : s'.sp = s.sp := h.reg_eq .sp
  have hpc : s'.pc = s.pc := h.reg_eq .pc
  cases i with
  | nop => exact h.of_next hs hs'
  | load r addr =>
    refine h.of_withReg hs hs' fun a ha => ?_
    rw [hreads addr (by simp [dataAccesses, ifReg_of_regOf ha])]
    exact h.setReg a _
  | store r addr | out port r => exact h.of_storeLow hs hs'
  | mov r1 r2 =>
    refine h.of_withRegs hs hs' fun a b => ?_
    rw [h.reg_eq]
    exact h.setReg a _
  | movi r imm => exact h.of_withReg hs hs' fun a _ => h.setReg a imm
  | add r1 r2 | sub r1 r2 | cmp r1 r2 | mul r1 r2 => exact h.of_aluOp hs hs'
  | jmp addr => exact (h.jumpIf true addr).of_next hs hs'
  | jz addr | jnz addr =>
    refine DifferInMemoryOnly.of_next hs hs' ?_
    rw [hzero]
    exact h.jumpIf _ addr
  | inOp => exact (h.raiseUnknownOpcode _).of_next hs hs'
  | push r =>
    refine h.of_withReg hs hs' fun a _ => ?_
    rw [h.decSp.reg_eq]
    exact h.pushByte _
  | pop r =>
    refine h.of_withReg hs hs' fun a ha => ?_
    rw [hsp, hreads s.sp (by simp [dataAccesses, ifReg_of_regOf ha])]
    exact (h.setReg a _).incSp
  | call addr =>
    rw [exec_call] at hs hs'
    refine DifferInMemoryOnly.of_next hs hs' ?_
    rw [hpc]
    exact ((h.pushByte _).pushByte _).setReg .pc addr
  | ret =>
    rw [exec_ret] at hs hs'
    refine DifferInMemoryOnly.of_next hs hs' ?_
    rw [hsp, hreads s.sp (by simp [dataAccesses]), hreads (s.sp + 1#16) (by simp [dataAccesses])]
    exact h.incSp.incSp.setReg .pc _
  | halt =>
    obtain ⟨m, rfl⟩ := h
    exact DifferInMemoryOnly.of_next hs hs' ⟨m, rfl⟩

/-- Settles O45. -/
theorem resultDependsOnlyOnTheListedReads : Obligations.ResultDependsOnlyOnTheListedReads := by
  intro i s t u m hreads hs hs'
  have h : DifferInMemoryOnly t u := differInMemoryOnly_exec ⟨m, rfl⟩ hreads hs hs'
  exact ⟨fun c => (h.reg_eq c).symm, h.halted_eq.symm, h.out_eq.symm⟩

end Sys2Proof.Machine
end
